-- ==== Sys2Proof/Word.lean ====
section
/-! DEFINITION. The widths of the block (00_scope.md R8, R11): every value is an unsigned bit vector. -/

namespace Sys2Proof

/-- A message byte, the pad byte, a byte of the Working Buffer. -/
abbrev Byte := BitVec 8

/-- A Working Buffer word, a message word, a host register, a command word. -/
abbrev Word := BitVec 32

/-- Seed, Multiplier, and the counters `K` and `C`. -/
abbrev DWord := BitVec 64

end Sys2Proof
end

