-- ==== Sys2Proof/Syntax.lean ====
section
/-! DEFINITION. The ten operations (30_encoding.md R70, opcode_table.json) and the three kinds of code word that carry them. -/

namespace Sys2Proof

/-- `MODE` and the `M` field of START: 0 default, 1 resume (10_state.md R27, 30_encoding.md R71). -/
inductive Mode where
  | defaultMode
  | resumeMode
deriving DecidableEq, Repr

/-- The operations. `off` and `data` are used as they stand (30_encoding.md R74). The mode of `step`, `fold` and `fin` is bit 3
of the selector, which their rows leave free (R76). -/
inductive Instr where
  /-- HRD `OFF` (43_host_interface.md R122). -/
  | hrd (off : BitVec 16)
  /-- HWR `OFF`, `DATA` (43_host_interface.md R123). -/
  | hwr (off : BitVec 16) (data : Word)
  /-- NOP (43_host_interface.md R124). -/
  | nop
  /-- START with its field `M` (43_host_interface.md R125). -/
  | start (m : Mode)
  /-- CLRERR (43_host_interface.md R126). -/
  | clrerr
  /-- INIT.D (40_init_padding.md R95). -/
  | initD
  /-- INIT.R (40_init_padding.md R96). -/
  | initR
  /-- STEP (41_update_loop.md R102). -/
  | step (m : Mode)
  /-- FOLD (42_fold_finalize.md R110). -/
  | fold (m : Mode)
  /-- FIN (42_fold_finalize.md R112). -/
  | fin (m : Mode)
deriving DecidableEq, Repr

/-- One transaction as it stands on the host port: the header `BH[16:0] = {WE, OFF}` and the data word of a write
(30_encoding.md R72). -/
structure BusWord where
  header : BitVec 17
  data : Word
deriving DecidableEq, Repr

/-- The three formats (30_encoding.md R70). -/
inductive Format where
  /-- Format B, a host bus transaction. -/
  | bus
  /-- Format H, a command word. -/
  | command
  /-- Format U, the engine's selector. -/
  | selector
deriving DecidableEq, Repr

/-- A word of one of the three formats; the formats are different places, so their bits never mix. -/
inductive CodeWord where
  | bus (w : BusWord)
  | command (cw : Word)
  | selector (sel : BitVec 4)
deriving DecidableEq, Repr

end Sys2Proof
end

