-- ==== Sys2Proof/WellFormed.lean ====
section
/-! DEFINITION. Which code words are legal. The types of `Instr` already bound every operand, so no term of `Instr` is
ill-formed; what can be ill-formed is the word. -/

namespace Sys2Proof

/-- R71: a command word is legal exactly when `Z = 0`, `OP <= 2`, and (`OP = 1` or `M = 0`). -/
def commandLegal (cw : Word) : Bool :=
  cw.extractLsb' 5 27 == 0#27 && (cw.extractLsb' 0 4).toNat ≤ 2 &&
    (cw.extractLsb' 0 4 == 1#4 || cw.getLsbD 4 == false)

/-- R76, R79: a selector picks a micro-operation exactly when `PHASE` is INIT, LOOP, FOLD or FIN. -/
def selectorLegal (sel : BitVec 4) : Bool :=
  1 ≤ (sel.extractLsb' 0 3).toNat && (sel.extractLsb' 0 3).toNat ≤ 4

/-- R72: only a write carries `DATA`. -/
def busLegal (w : BusWord) : Bool :=
  w.header.getLsbD 16 || w.data == 0#32

/-- The words that encode an operation. -/
def CodeWord.legal : CodeWord → Bool
  | .bus w => busLegal w
  | .command cw => commandLegal cw
  | .selector sel => selectorLegal sel

end Sys2Proof
end

