-- ==== Sys2Proof/Decode.lean ====
section
/-! DEFINITION. The decoder (30_encoding.md R71 to R79), total on every word of every format, rejecting by name; the encoder;
the rows of opcode_table.json. -/

namespace Sys2Proof

/-- Why a word is no operation. -/
inductive DecodeError where
  /-- R78: the word matches no row of format H. -/
  | illegalCommand (cw : Word)
  /-- R76: `PHASE` is IDLE or DONE; the engine has no step. -/
  | engineAtRest (sel : BitVec 4)
  /-- R79: `PHASE` codes 6 and 7, which no rule produces. -/
  | unreachablePhase (sel : BitVec 4)
deriving DecidableEq, Repr

/-- The mode that a mode bit stands for (R27, R71). -/
def modeOfBit (b : Bool) : Mode := if b then .resumeMode else .defaultMode

/-- The bit that stands for a mode. -/
def modeBit : Mode → BitVec 1
  | .defaultMode => 0#1
  | .resumeMode => 1#1

/-- R72, R77: bit 16 of the header is `WE`, bits 15:0 are `OFF`. A read looks at no data. -/
def decodeBus (w : BusWord) : Instr :=
  if w.header.getLsbD 16 then .hwr (w.header.extractLsb' 0 16) w.data else .hrd (w.header.extractLsb' 0 16)

/-- R71, R75, R78: `OP` in bits 3:0, `M` in bit 4, bits 31:5 zero. -/
def decodeCommand (cw : Word) : Except DecodeError Instr :=
  if cw.extractLsb' 5 27 ≠ 0#27 then .error (.illegalCommand cw)
  else match (cw.extractLsb' 0 4).toNat, cw.getLsbD 4 with
    | 0, false => .ok .nop
    | 1, m => .ok (.start (modeOfBit m))
    | 2, false => .ok .clrerr
    | _, _ => .error (.illegalCommand cw)

/-- R73, R76, R79: bit 3 is `MODE`, bits 2:0 are `PHASE`. -/
def decodeSelector (sel : BitVec 4) : Except DecodeError Instr :=
  match (sel.extractLsb' 0 3).toNat with
  | 1 => .ok (if sel.getLsbD 3 then .initR else .initD)
  | 2 => .ok (.step (modeOfBit (sel.getLsbD 3)))
  | 3 => .ok (.fold (modeOfBit (sel.getLsbD 3)))
  | 4 => .ok (.fin (modeOfBit (sel.getLsbD 3)))
  | 0 => .error (.engineAtRest sel)
  | 5 => .error (.engineAtRest sel)
  | _ => .error (.unreachablePhase sel)

/-- The decoder. -/
def decode : CodeWord → Except DecodeError Instr
  | .bus w => .ok (decodeBus w)
  | .command cw => decodeCommand cw
  | .selector sel => decodeSelector sel

/-! ## The encoder -/

/-- The transaction `{WE, OFF}` with its data word. -/
def busWord (we : BitVec 1) (off : BitVec 16) (data : Word) : BusWord := ⟨we ++ off, data⟩

/-- The selector `{MODE, PHASE}` (R73). -/
def selectorWord (m : Mode) (phase : BitVec 3) : BitVec 4 := modeBit m ++ phase

/-- The command word of START: `Z = 0`, the field `M`, `OP = 1` (R71). -/
def startWord (m : Mode) : Word := (0#27 ++ modeBit m) ++ 1#4

/-- The word that encodes an operation (R75 to R77). -/
def encode : Instr → CodeWord
  | .hrd off => .bus (busWord 0#1 off 0#32)
  | .hwr off data => .bus (busWord 1#1 off data)
  | .nop => .command 0x00000000#32
  | .start m => .command (startWord m)
  | .clrerr => .command 0x00000002#32
  | .initD => .selector (selectorWord .defaultMode 1#3)
  | .initR => .selector (selectorWord .resumeMode 1#3)
  | .step m => .selector (selectorWord m 2#3)
  | .fold m => .selector (selectorWord m 3#3)
  | .fin m => .selector (selectorWord m 4#3)

/-! ## The opcode table -/

/-- A row of opcode_table.json: a word `w` of the row's format selects it when `w &&& mask = pattern` (R75 to R77). -/
structure OpcodeRow where
  mnemonic : String
  format : Format
  pattern : Nat
  mask : Nat
deriving DecidableEq, Repr

/-- The row of each operation, as opcode_table.json gives it. -/
def opcodeRow : Instr → OpcodeRow
  | .hrd _ => ⟨"HRD", .bus, 0x00000, 0x10000⟩
  | .hwr _ _ => ⟨"HWR", .bus, 0x10000, 0x10000⟩
  | .nop => ⟨"NOP", .command, 0x00000000, 0xFFFFFFFF⟩
  | .start _ => ⟨"START", .command, 0x00000001, 0xFFFFFFEF⟩
  | .clrerr => ⟨"CLRERR", .command, 0x00000002, 0xFFFFFFFF⟩
  | .initD => ⟨"INIT.D", .selector, 0b0001, 0b1111⟩
  | .initR => ⟨"INIT.R", .selector, 0b1001, 0b1111⟩
  | .step _ => ⟨"STEP", .selector, 0b0010, 0b0111⟩
  | .fold _ => ⟨"FOLD", .selector, 0b0011, 0b0111⟩
  | .fin _ => ⟨"FIN", .selector, 0b0100, 0b0111⟩

/-- The format of a word. -/
def CodeWord.format : CodeWord → Format
  | .bus _ => .bus
  | .command _ => .command
  | .selector _ => .selector

/-- The bits that the table's match and mask are over: `BH`, `CW` or `SEL`. -/
def CodeWord.tableBits : CodeWord → Nat
  | .bus w => w.header.toNat
  | .command cw => cw.toNat
  | .selector sel => sel.toNat

/-- The word selects the row. -/
def OpcodeRow.matchesWord (r : OpcodeRow) (w : CodeWord) : Bool :=
  w.format == r.format && w.tableBits &&& r.mask == r.pattern

/-! ## Words laid out as bytes -/

/-- The number whose byte of lowest position is the first of the list (20_memory.md R50). -/
def leNumber : List Byte → Nat
  | [] => 0
  | b :: bs => b.toNat + 256 * leNumber bs

/-- The lowest `n` bytes of a number, least significant first. -/
def leBytes : Nat → Nat → List Byte
  | 0, _ => []
  | n + 1, w => BitVec.ofNat 8 w :: leBytes n (w / 256)

/-- How many bytes the model lays a word of the format out in: three for `BH` and four for `DATA`; four for `CW`; one for
`SEL` (DESIGN CHOICE, notes/assumptions/15.md). -/
def Format.byteCount : Format → Nat
  | .bus => 7
  | .command => 4
  | .selector => 1

/-- The word that a list of bytes holds; a byte that is not there reads as 0, and bits above a field's width are no bits of it. -/
def CodeWord.ofBytes (f : Format) (bytes : List Byte) : CodeWord :=
  match f with
  | .bus => .bus ⟨BitVec.ofNat 17 (leNumber (bytes.take 3)), BitVec.ofNat 32 (leNumber ((bytes.drop 3).take 4))⟩
  | .command => .command (BitVec.ofNat 32 (leNumber (bytes.take 4)))
  | .selector => .selector (BitVec.ofNat 4 (leNumber (bytes.take 1)))

/-- The decoder on any bytes. -/
def decodeBytes (f : Format) (bytes : List Byte) : Except DecodeError Instr :=
  decode (CodeWord.ofBytes f bytes)

/-- The format of a table row by the whole bytes its bits fill: 4 bits of `SEL` fill one, 17 of `BH` three, 32 of `CW` four. -/
def tableFormat (nbits : Nat) : Format :=
  if nbits ≤ 8 then .selector else if nbits ≤ 24 then .bus else .command

/-- The word whose low `nbits` bits are `w` and whose other bits are 0, in the format that `nbits` names. -/
def tableCodeWord (nbits w : Nat) : CodeWord :=
  let f := tableFormat nbits
  CodeWord.ofBytes f (leBytes f.byteCount (w % 2 ^ nbits))

/-- The operation this decoder reads from a row's word. -/
def decodeTableWord (nbits w : Nat) : Option Instr :=
  let f := tableFormat nbits
  (decodeBytes f (leBytes f.byteCount (w % 2 ^ nbits))).toOption

end Sys2Proof
end

