-- ==== Sys2Proof/Config.lean ====
section
/-! DEFINITION. What the spec leaves to the instance (00_scope.md R6, R7, R9) and the free values of the model. Every
`opaque` constant has no body: no proof can see what it is, so every claim holds whatever it is. -/

namespace Sys2Proof

/-- `C_SEED`, an open 64-bit parameter (R6; DESIGN CHOICE, notes/assumptions/8.md). -/
opaque Config.cSeed : DWord

/-- `C_LCG`, an open 64-bit parameter (R6; DESIGN CHOICE, notes/assumptions/8.md). -/
opaque Config.cLcg : DWord

/-- One less than the number of 8-byte blocks of the Working Buffer (R7; DESIGN CHOICE, notes/assumptions/9.md). -/
opaque Config.wbBlocks : Fin 7680

/-- `WB_BYTES`: a multiple of 8, at least 8, at most 0xF000 (R7). -/
def Config.wbBytes : Nat := Config.wbBlocks.val * 8 + 8

/-- FREE VALUE: byte `addr` of a Working Buffer word that nothing has written since the reset numbered `gen`
(70_reset_and_hazards.md R162, 93_implementation_defined.md U3; DESIGN CHOICE, notes/assumptions/2.md). -/
opaque Config.freeWbByte (gen addr : Nat) : Byte

/-- FREE VALUE: the message byte at offset `addr` of a store whose contents the state does not list, for the
placement numbered `gen` (20_memory.md R62; DESIGN CHOICE, notes/assumptions/3.md). -/
opaque Config.freeMsgByte (gen addr : Nat) : Byte

/-- FREE VALUE: the padded length for a digest length the spec calls illegal, for which R92 states none
(DESIGN CHOICE, notes/assumptions/10.md). -/
opaque Config.openPadLen (msgLen hashLen : Nat) : Nat

end Sys2Proof
end

