-- ==== Sys2Proof/Machine/State.lean ====
section
/-! DEFINITION. The state of the block (10_state.md R20 to R41), the model's own inputs and outputs beside it, the reasons to
stop, and the state after reset (R46). -/

namespace Sys2Proof.Machine

/-- A byte memory: pairs of address and byte, addresses strictly rising. An address not listed holds NO VALUE; what a
read of one draws is said where the read is defined. -/
abbrev Memory := List Host.Cell

/-- `PHASE`, a 3-bit register with six legal values (10_state.md R24; DEDUCED, notes/assumptions/17.md). -/
inductive Phase where
  | idle | init | loop | fold | fin | done
deriving DecidableEq, Repr

/-- Who moves next. MODEL'S OWN (DESIGN CHOICE, notes/assumptions/5.md): the spec orders the two agents only by the hold. -/
inductive Turn where
  /-- The ENGINE's turn: the micro-operation that the selector picks, if any. -/
  | engine
  /-- The HOST's turn: the transaction at the head of the port, if any. -/
  | host
  /-- The reset input is asserted (70_reset_and_hazards.md R160). -/
  | reset
  /-- The platform places a message behind the message port (43_host_interface.md R127 step 1). -/
  | message (bytes : List Byte)
deriving DecidableEq, Repr

/-- Everything the spec gives the block, then what the model adds. -/
structure State where
  /-- `SEED` (R20). -/
  seed : DWord
  /-- `LCG`, the Multiplier (R21). -/
  lcg : DWord
  /-- `PHASE` (R24). -/
  phase : Phase
  /-- `K`, the byte offset of the next message word (R25). -/
  k : DWord
  /-- `C`, the padded length (R26). -/
  c : DWord
  /-- `MODE` (R27). -/
  mode : Mode
  /-- `ERR`, the first error's code (R29). -/
  err : BitVec 4
  /-- `ERRINFO` (R32). -/
  errinfo : Word
  /-- `HASHLEN` (R33). -/
  hashlen : Word
  /-- `MSGLEN` (R34). -/
  msglen : Word
  /-- `ENTROPY_LO` (R36). -/
  entropyLo : Word
  /-- `ENTROPY_HI` (R36). -/
  entropyHi : Word
  /-- `IV0`, bytes 0 to 3 of the state vector (R37). -/
  iv0 : Word
  /-- `IV1`, bytes 4 to 7. -/
  iv1 : Word
  /-- `IV2`, bytes 8 to 11. -/
  iv2 : Word
  /-- `IV3`, bytes 12 to 15. -/
  iv3 : Word
  /-- `WB`, as bytes (R39, 20_memory.md R52); a byte not listed has no value since the last reset (R162). -/
  wb : Memory
  /-- `HPOS`, the Cursor (R40). -/
  hpos : BitVec 16
  /-- `LB`, the pad byte (R41). -/
  lb : Byte
  /-- INPUT: the message store behind the message port (20_memory.md R58). No operation writes it. -/
  msg : Memory
  /-- Model's own: which placement of the message store is in force (DESIGN CHOICE, notes/assumptions/3.md). -/
  msgGen : Nat
  /-- Model's own: which reset the unwritten Working Buffer bytes date from (DESIGN CHOICE, notes/assumptions/2.md). -/
  wbGen : Nat
  /-- INPUT: the host's transactions not yet performed, oldest first (43_host_interface.md R120, R121). -/
  port : List BusWord
  /-- OUTPUT: the 32 bits that the last performed HRD returned (43_host_interface.md R122). -/
  hrdata : Word
  /-- INPUT: the order of turns (DESIGN CHOICE, notes/assumptions/5.md). -/
  turns : List Turn
deriving DecidableEq, Repr

/-- Why the machine stops with a fault. -/
inductive Fault where
  /-- Raised by INIT.D, STEP and FOLD when they would touch a Working Buffer word that does not exist (at or past
  `WB_BYTES`). No reachable state does so (20_memory.md R55, 41_update_loop.md R102). SAFE: the machine stops where the spec
  gives nothing (DESIGN CHOICE, notes/assumptions/11.md). -/
  | wbRange
deriving DecidableEq, Repr

/-- Why an instruction has no meaning. -/
inductive Refusal where
  /-- Raised by an arm of `exec` whose instruction has no meaning yet; no arm raises it now. SAFE. -/
  | notModelled (mnemonic : String)
deriving DecidableEq, Repr

/-- The block right after reset (10_state.md R46, 70_reset_and_hazards.md R160). `SEED`, `LCG`, `K`, `C`, `HPOS` and `LB` are
unspecified there and hold 0 by DESIGN CHOICE (notes/assumptions/1.md); no Working Buffer byte has a value. -/
def State.reset : State where
  seed := 0#64
  lcg := 0#64
  phase := .idle
  k := 0#64
  c := 0#64
  mode := .defaultMode
  err := 0#4
  errinfo := 0#32
  hashlen := 0#32
  msglen := 0#32
  entropyLo := 0#32
  entropyHi := 0#32
  iv0 := 0#32
  iv1 := 0#32
  iv2 := 0#32
  iv3 := 0#32
  wb := []
  hpos := 0#16
  lb := 0#8
  msg := []
  msgGen := 0
  wbGen := 0
  port := []
  hrdata := 0#32
  turns := []

end Sys2Proof.Machine
end

