-- ==== Sys2Proof/Machine/Ops.lean ====
section
/-! DEFINITION. The named operations over memory and registers, error entry and its return. -/

namespace Sys2Proof.Machine

/-! ## Byte memory -/

/-- The byte a memory lists at an address, if it lists one. -/
def Memory.lookup : Memory → Nat → Option Byte
  | [], _ => none
  | (b, v) :: rest, a => if a = b then some v else Memory.lookup rest a

/-- Write one byte, keeping the addresses strictly rising. -/
def Memory.put : Memory → Nat → Byte → Memory
  | [], a, v => [(a, v)]
  | (b, w) :: rest, a, v =>
    if a < b then (a, v) :: (b, w) :: rest
    else if a = b then (a, v) :: rest
    else (b, w) :: Memory.put rest a v

/-- The canonical form: addresses strictly rising. A listed byte is never equal to what an unlisted address holds, because
that is no value at all. -/
def Memory.wf : Memory → Bool
  | [] => true
  | (a, _) :: rest => rest.all (fun cell => decide (a < cell.1)) && Memory.wf rest

/-- Every listed address is below the bound. -/
def Memory.below (bound : Nat) (m : Memory) : Bool := m.all (fun cell => decide (cell.1 < bound))

/-- The cells of a list of bytes placed from an address up. -/
def Memory.ofBytes : Nat → List Byte → Memory
  | _, [] => []
  | a, b :: bs => (a, b) :: Memory.ofBytes (a + 1) bs

/-! ## The Working Buffer (20_memory.md R52) -/

/-- Byte `a` of a Working Buffer; a byte with no value draws the free value of its address (93_implementation_defined.md U3). -/
def wbByteOf (gen : Nat) (m : Memory) (a : Nat) : Byte := (m.lookup a).getD (Config.freeWbByte gen a)

/-- `WB[i]` of a Working Buffer: the byte of lowest offset is the least significant. -/
def wbWordOf (gen : Nat) (m : Memory) (i : Nat) : Word :=
  (wbByteOf gen m (4 * i + 3) ++ wbByteOf gen m (4 * i + 2)) ++ (wbByteOf gen m (4 * i + 1) ++ wbByteOf gen m (4 * i))

/-- `WB[i] <- v`, whole words only (20_memory.md R57). -/
def putWbWord (m : Memory) (i : Nat) (v : Word) : Memory :=
  (((m.put (4 * i) (v.extractLsb' 0 8)).put (4 * i + 1) (v.extractLsb' 8 8)).put
    (4 * i + 2) (v.extractLsb' 16 8)).put (4 * i + 3) (v.extractLsb' 24 8)

/-- The zero-fill of INIT.D (40_init_padding.md R95): words `0 .. n - 1`, in order. -/
def zeroFill : Nat → Memory → Memory
  | 0, m => m
  | n + 1, m => putWbWord (zeroFill n m) n 0#32

/-- The first `count` turns of FOLD's loop for lanes of `n` words (42_fold_finalize.md R110), in order. -/
def foldLanes (gen n : Nat) : Nat → Memory → Memory
  | 0, m => m
  | i + 1, m =>
    let done := foldLanes gen n i m
    putWbWord done i (wbWordOf gen done i ^^^ wbWordOf gen done (n + i))

/-- Byte `a` of the Working Buffer. -/
def State.wbByte (s : State) (a : Nat) : Byte := wbByteOf s.wbGen s.wb a

/-- `WB[i]`. -/
def State.wbWord (s : State) (i : Nat) : Word := wbWordOf s.wbGen s.wb i

/-! ## The message port (20_memory.md R58) -/

/-- `MemRead(MSG, a, 1)`; a byte the store does not list draws a free value (DESIGN CHOICE, notes/assumptions/3.md). -/
def State.msgByte (s : State) (a : Nat) : Byte := (s.msg.lookup a).getD (Config.freeMsgByte s.msgGen a)

/-! ## The host port -/

/-- The transaction at the head of the port is performed; the host goes on to its next one (43_host_interface.md R120). -/
def State.retire (s : State) : State := { s with port := s.port.tail }

/-- The word a read returns to the host (43_host_interface.md R122). -/
def State.answer (v : Word) (s : State) : State := { s with hrdata := v }

/-! ## Errors -/

/-- The three error codes (60_exceptions.md R141). -/
inductive ErrCode where
  | addr | cmd | hashLen
deriving DecidableEq, Repr

/-- The code that `ERR` holds (R141). -/
def ErrCode.bits : ErrCode → BitVec 4
  | .addr => 1#4
  | .cmd => 2#4
  | .hashLen => 3#4

/-- Error entry (60_exceptions.md R143): the first error is kept, nothing else changes. -/
def State.raiseError (code : ErrCode) (info : Word) (s : State) : State :=
  if s.err = 0#4 then { s with err := code.bits, errinfo := info } else s

/-- The return from an error (60_exceptions.md R146): it restores nothing, because error entry saved nothing. -/
def State.clearError (s : State) : State := { s with err := 0#4, errinfo := 0#32 }

/-- What `E_ADDR` records (60_exceptions.md R144): `WE` in bit 31, zeros, `OFF` in bits 15:0. -/
def addrInfo (we : BitVec 1) (off : BitVec 16) : Word := (we ++ 0#15) ++ off

end Sys2Proof.Machine
end

