-- ==== Sys2Proof/Machine/Operands.lean ====
section
/-! DEFINITION. The padding controller's functions (40_init_padding.md), the message word (41_update_loop.md R100), the state
vector (20_memory.md R54) and the host address map (20_memory.md R60). -/

namespace Sys2Proof.Machine

/-- `HLM(H)` (R90): `H` when `H = 4`, else `2 * H`, in exact arithmetic. It does not depend on `MODE` (90_conflicts.md C1). -/
def hlm (h : Nat) : Nat := if h = 4 then h else 2 * h

/-- `RUP(x, m)` (00_scope.md R12), stated there for `m > 0`. -/
def rup (x m : Nat) : Nat := (x + m - 1) / m * m

/-- A digest length the functions of the padding controller are stated for (R90): `H >= 4` and `H mod 4 = 0`. -/
def digestLength (h : Nat) : Bool := decide (4 ≤ h) && decide (h % 4 = 0)

/-- What START accepts (43_host_interface.md R125): a digest length that fits the Working Buffer. -/
def jobLength (h : Nat) : Bool := digestLength h && decide (hlm h ≤ Config.wbBytes)

/-- `PADLEN(L, H)` (R92), exact; a free value where the spec states none (DESIGN CHOICE, notes/assumptions/10.md). -/
def padLen (l h : Nat) : Nat :=
  if digestLength h then rup (rup l 4 + h) (hlm h) else Config.openPadLen l h

/-- `PADBYTE` (R91): the complement of the last message byte, or 0xFF for the empty message, whose port is not read. -/
def State.padByte (s : State) : Byte :=
  if s.msglen = 0#32 then 0xFF#8 else ~~~ s.msgByte (s.msglen.toNat - 1)

/-- `P(x)` of R100: the literal bytes followed by pad bytes without end. -/
def State.paddedByte (s : State) (x : Nat) : Byte :=
  if x < s.msglen.toNat then s.msgByte x else s.lb

/-- `MSGW(k)` (R100). -/
def State.msgWord (s : State) (k : Nat) : Word :=
  (s.paddedByte (k + 3) ++ s.paddedByte (k + 2)) ++ (s.paddedByte (k + 1) ++ s.paddedByte k)

/-- `ENTROPY` (10_state.md R36). -/
def State.entropy (s : State) : DWord := s.entropyHi ++ s.entropyLo

/-- `LE64(IV, 0)`, the initial Multiplier of resume mode (20_memory.md R54). -/
def State.ivLcg (s : State) : DWord := s.iv1 ++ s.iv0

/-- `LE64(IV, 8)`, the initial Seed of resume mode (20_memory.md R54). -/
def State.ivSeed (s : State) : DWord := s.iv3 ++ s.iv2

/-- Byte `n` of the state vector (10_state.md R37); the vector has 16. -/
def State.ivByte (s : State) (n : Nat) : Byte :=
  match n / 4 with
  | 0 => s.iv0.extractLsb' (8 * (n % 4)) 8
  | 1 => s.iv1.extractLsb' (8 * (n % 4)) 8
  | 2 => s.iv2.extractLsb' (8 * (n % 4)) 8
  | _ => s.iv3.extractLsb' (8 * (n % 4)) 8

/-- What a host offset reaches. -/
inductive HostTarget where
  | cmd | status | errinfo | hashlen | msglen | entropyLo | entropyHi | iv0 | iv1 | iv2 | iv3
  /-- `WB[i]` through the window. -/
  | window (i : Nat)
  /-- Misaligned, reserved, or past the window (20_memory.md R56, R60). -/
  | nothing
deriving DecidableEq, Repr

/-- The address map of the HOST space (10_state.md R30, 20_memory.md R60, with `WB_BASE` = 0x1000). -/
def hostTarget (off : BitVec 16) : HostTarget :=
  if off.toNat % 4 ≠ 0 then .nothing
  else if off = 0x0000#16 then .cmd
  else if off = 0x0004#16 then .status
  else if off = 0x0008#16 then .errinfo
  else if off = 0x0010#16 then .hashlen
  else if off = 0x0014#16 then .msglen
  else if off = 0x0018#16 then .entropyLo
  else if off = 0x001C#16 then .entropyHi
  else if off = 0x0020#16 then .iv0
  else if off = 0x0024#16 then .iv1
  else if off = 0x0028#16 then .iv2
  else if off = 0x002C#16 then .iv3
  else if 0x1000 ≤ off.toNat ∧ off.toNat - 0x1000 < Config.wbBytes then .window ((off.toNat - 0x1000) / 4)
  else .nothing

end Sys2Proof.Machine
end

