-- ==== Sys2Proof/Machine/Flags.lean ====
section
/-! DEFINITION. The status views of `PHASE` (10_state.md R28, R31), the selector (30_encoding.md R73) and the hold
(43_host_interface.md R121). The block has no condition codes. -/

namespace Sys2Proof.Machine

/-- `BUSY`, and the pin `busy` (R28, R47). -/
def State.busy (s : State) : Bool :=
  match s.phase with
  | .init | .loop | .fold | .fin => true
  | .idle | .done => false

/-- `DONE`, and the pin `done` (R28, R47). -/
def State.done (s : State) : Bool :=
  match s.phase with
  | .done => true
  | .idle | .init | .loop | .fold | .fin => false

/-- `STATUS` (R31): `{ 20'b0, ERR[3:0], 6'b0, DONE, BUSY }`. -/
def State.statusWord (s : State) : Word :=
  (((0#20 ++ s.err) ++ 0#6) ++ BitVec.ofBool s.done) ++ BitVec.ofBool s.busy

/-- The code of a phase (R24). -/
def Phase.code : Phase → BitVec 3
  | .idle => 0#3
  | .init => 1#3
  | .loop => 2#3
  | .fold => 3#3
  | .fin => 4#3
  | .done => 5#3

/-- The phase of a code; 6 and 7 are the code of none (R24). -/
def Phase.ofCode (code : BitVec 3) : Option Phase :=
  match code.toNat with
  | 0 => some .idle
  | 1 => some .init
  | 2 => some .loop
  | 3 => some .fold
  | 4 => some .fin
  | 5 => some .done
  | _ => none

/-- The selector `SEL = {MODE, PHASE}` (30_encoding.md R73). -/
def State.sel (s : State) : BitVec 4 := selectorWord s.mode s.phase.code

/-- R121: while `BUSY = 1` every transaction is held except a read of `STATUS` or of `ERRINFO`. -/
def State.holdsRead (s : State) (off : BitVec 16) : Bool :=
  s.busy && decide (off ≠ 0x0004#16) && decide (off ≠ 0x0008#16)

/-- R121: the hold of a transaction as it stands on the port. -/
def State.holds (s : State) (w : BusWord) : Bool :=
  match decodeBus w with
  | .hrd off => s.holdsRead off
  | _ => s.busy

end Sys2Proof.Machine
end

