-- ==== Sys2Proof/Machine/Arbiter.lean ====
section
/-! DEFINITION. Who moves next, and what is not an operation: the reset input and the placing of a message. -/

namespace Sys2Proof.Machine

/-- The engine's next micro-operation, decoded from its selector (10_state.md R23, 30_encoding.md R76). -/
def State.engineInstr (s : State) : Option Instr := (decode (.selector s.sel)).toOption

/-- The host's next transaction, decoded from the head of the port. -/
def State.hostInstr (s : State) : Option Instr :=
  match s.port with
  | [] => none
  | w :: _ => (decode (.bus w)).toOption

/-- The port after a reset: a held transaction is dropped (70_reset_and_hazards.md R160); those not yet presented are not. -/
def State.portAfterReset (s : State) : List BusWord :=
  match s.port with
  | [] => []
  | w :: rest => if s.holds w then rest else w :: rest

/-- The reset input (70_reset_and_hazards.md R160): the block goes to its state after reset. What is outside the block (the
message store, the host's transactions not yet presented, the word it last read, the turns to come) stays. -/
def State.assertReset (s : State) : State :=
  { State.reset with
    msg := s.msg
    msgGen := s.msgGen
    wbGen := s.wbGen + 1
    port := s.portAfterReset
    hrdata := s.hrdata
    turns := s.turns }

/-- The platform places a message; during a job there is no such move (20_memory.md R58, 70_reset_and_hazards.md R167). -/
def State.placeMessage (bytes : List Byte) (s : State) : State :=
  if s.busy then s else { s with msg := Memory.ofBytes 0 bytes, msgGen := s.msgGen + 1 }

/-- The operation that moves next, if any, and the state it starts from. With no turn listed the engine moves while it has
a step, else the host does (DESIGN CHOICE, notes/assumptions/5.md). -/
def State.nextMove (s : State) : Option Instr × State :=
  match s.turns with
  | [] => (s.engineInstr.or s.hostInstr, s)
  | .engine :: rest => (s.engineInstr, { s with turns := rest })
  | .host :: rest => (s.hostInstr, { s with turns := rest })
  | .reset :: rest => (none, { s with turns := rest }.assertReset)
  | .message bytes :: rest => (none, { s with turns := rest }.placeMessage bytes)

end Sys2Proof.Machine
end

