-- ==== Sys2Proof/Machine/Engine.lean ====
section
/-! DEFINITION. The five micro-operations (40_init_padding.md R95, R96; 41_update_loop.md R102; 42_fold_finalize.md R110, R112).
Which of them is the engine's step is the selector's business (30_encoding.md R76); a micro-operation raises no error (60_exceptions.md
R140). -/

namespace Sys2Proof.Machine

/-- The bytes of words `0 .. n - 1` exist (20_memory.md R43 (b)). -/
def wbHolds (n : Nat) : Bool := decide (4 * n ≤ Config.wbBytes)

/-- What both initialisations write from `SEED` on (R95, R96). -/
def State.beginLoop (seed lcg : DWord) (s : State) : State :=
  { s with
    seed := seed
    lcg := lcg
    hpos := 0#16
    lb := s.padByte
    c := BitVec.ofNat 64 (padLen s.msglen.toNat s.hashlen.toNat)
    k := 0#64
    phase := .loop }

/-- INIT.D (R95). -/
def execInitD (s : State) : Host.Outcome State Fault Refusal :=
  let n := hlm s.hashlen.toNat / 4
  if wbHolds n then
    .next ({ s with wb := zeroFill n s.wb }.beginLoop (Config.cSeed ^^^ s.entropy) Config.cLcg)
  else .fault .wbRange

/-- INIT.R (R96): the Working Buffer and `ENTROPY` are neither read nor written. -/
def execInitR (s : State) : Host.Outcome State Fault Refusal :=
  .next (s.beginLoop s.ivSeed s.ivLcg)

/-- `S1` of R102: lines 2 and 3. -/
def seedProduct (seed lcg : DWord) : DWord := ~~~ (seed * lcg)

/-- Line 7 of R102: `ph = hc ^ SEED[63:32]`, with `SEED` as line 3 left it. -/
def mixedWord (s1 : DWord) (hc : Word) : Word := hc ^^^ s1.extractLsb' 32 32

/-- Line 5 of R102: `hl = LCG[63:32] ^ msgw`, with `LCG` as it was on entry. -/
def messageMix (lcg : DWord) (msgw : Word) : Word := lcg.extractLsb' 32 32 ^^^ msgw

/-- Line 10 of R102: the Cursor advances by 4 and wraps at `HLM(HASHLEN)` (in its own 16 bits: DEDUCED, notes/assumptions/12.md). -/
def State.nextHpos (s : State) : BitVec 16 :=
  if (s.hpos + 4#16).toNat = hlm s.hashlen.toNat then 0#16 else s.hpos + 4#16

/-- The loop test of R104, after `K` has advanced: FOLD for two lanes, else FIN. -/
def State.nextPhase (s : State) : Phase :=
  if s.k + 4#64 = s.c then (if s.hashlen.toNat < hlm s.hashlen.toNat then .fold else .fin) else s.phase

/-- The ten lines of R102 as one assignment, from the values on entry. -/
def State.updateStep (s : State) : State :=
  let i := s.hpos.toNat / 4
  let s1 := seedProduct s.seed s.lcg
  let hl := messageMix s.lcg (s.msgWord s.k.toNat)
  let ph := mixedWord s1 (s.wbWord i)
  { s with
    seed := s1 ^^^ ph.setWidth 64 ^^^ hl.setWidth 64
    lcg := s.lcg + s1
    wb := putWbWord s.wb i ph
    hpos := s.nextHpos
    k := s.k + 4#64
    phase := s.nextPhase }

/-- STEP (R102), in either mode: no rule reads the selector's bit 3 here (DEDUCED, notes/assumptions/13.md). -/
def execStep (_m : Mode) (s : State) : Host.Outcome State Fault Refusal :=
  if wbHolds (s.hpos.toNat / 4 + 1) then .next s.updateStep else .fault .wbRange

/-- FOLD (R110): lane 1 is exclusive-ored into lane 0, word by word. -/
def execFold (_m : Mode) (s : State) : Host.Outcome State Fault Refusal :=
  let n := s.hashlen.toNat / 4
  if wbHolds (2 * n) then
    .next { s with wb := foldLanes s.wbGen n n s.wb, phase := .fin }
  else .fault .wbRange

/-- FIN (R112): the normalisation is the identity (20_memory.md R53); what is left is the hand-over to the host. -/
def execFin (_m : Mode) (s : State) : Host.Outcome State Fault Refusal :=
  .next { s with phase := .done }

end Sys2Proof.Machine
end

