-- ==== Sys2Proof/Machine/Commands.lean ====
section
/-! DEFINITION. The three commands (43_host_interface.md R124 to R126). A command is the data of an HWR to `CMD`, so each is
held while `BUSY = 1` (R121) and each ends that transaction. -/

namespace Sys2Proof.Machine

/-- R121 for a write: held, with no effect and still on the port, while `BUSY = 1`; else performed, and the transaction is over
(DEDUCED, notes/assumptions/14.md). -/
def State.performWrite (s : State) (effect : State → State) : Host.Outcome State Fault Refusal :=
  if s.busy then .next s else .next (effect s).retire

/-- NOP (R124): no state changes. -/
def execNop (s : State) : Host.Outcome State Fault Refusal := s.performWrite id

/-- What START does where it is not held (R125): nothing while `ERR != 0`; `E_HASHLEN` for a length it refuses; else the
job begins. -/
def State.startJob (m : Mode) (s : State) : State :=
  if s.err ≠ 0#4 then s
  else if jobLength s.hashlen.toNat then { s with mode := m, phase := .init }
  else s.raiseError .hashLen s.hashlen

/-- START (R125). -/
def execStart (m : Mode) (s : State) : Host.Outcome State Fault Refusal := s.performWrite (State.startJob m)

/-- CLRERR (R126). -/
def execClrerr (s : State) : Host.Outcome State Fault Refusal := s.performWrite State.clearError

end Sys2Proof.Machine
end

