-- ==== Sys2Proof/Machine/HostPort.lean ====
section
/-! DEFINITION. The two bus transactions (43_host_interface.md R120 to R123). -/

namespace Sys2Proof.Machine

/-- What a read of an offset returns (R122); nothing where it raises `E_ADDR`. -/
def State.hostRead (s : State) (off : BitVec 16) : Option Word :=
  match hostTarget off with
  | .cmd => some 0#32
  | .status => some s.statusWord
  | .errinfo => some s.errinfo
  | .hashlen => some s.hashlen
  | .msglen => some s.msglen
  | .entropyLo => some s.entropyLo
  | .entropyHi => some s.entropyHi
  | .iv0 => some s.iv0
  | .iv1 => some s.iv1
  | .iv2 => some s.iv2
  | .iv3 => some s.iv3
  | .window i => some (s.wbWord i)
  | .nothing => none

/-- HRD `OFF` (R122). -/
def execHrd (off : BitVec 16) (s : State) : Host.Outcome State Fault Refusal :=
  if s.holdsRead off then .next s
  else match s.hostRead off with
    | some v => .next (s.answer v).retire
    | none => .next ((s.raiseError .addr (addrInfo 0#1 off)).answer 0#32).retire

/-- A command word delivered through `CMD` (R123, 30_encoding.md R75, R78). -/
def execCommandWord (data : Word) (s : State) : Host.Outcome State Fault Refusal :=
  match decodeCommand data with
  | .ok .nop => execNop s
  | .ok (.start m) => execStart m s
  | .ok .clrerr => execClrerr s
  | _ => s.performWrite (State.raiseError .cmd data)

/-- HWR `OFF`, `DATA` (R123). -/
def execHwr (off : BitVec 16) (data : Word) (s : State) : Host.Outcome State Fault Refusal :=
  match hostTarget off with
  | .cmd => execCommandWord data s
  | .status => s.performWrite id
  | .errinfo => s.performWrite id
  | .hashlen => s.performWrite fun s => { s with hashlen := data }
  | .msglen => s.performWrite fun s => { s with msglen := data }
  | .entropyLo => s.performWrite fun s => { s with entropyLo := data }
  | .entropyHi => s.performWrite fun s => { s with entropyHi := data }
  | .iv0 => s.performWrite fun s => { s with iv0 := data }
  | .iv1 => s.performWrite fun s => { s with iv1 := data }
  | .iv2 => s.performWrite fun s => { s with iv2 := data }
  | .iv3 => s.performWrite fun s => { s with iv3 := data }
  | .window i => s.performWrite fun s => { s with wb := putWbWord s.wb i data }
  | .nothing => s.performWrite (State.raiseError .addr (addrInfo 1#1 off))

end Sys2Proof.Machine
end

