-- ==== Sys2Proof/Machine/Dispatch.lean ====
section
/-! DEFINITION. One arm per operation. -/

namespace Sys2Proof.Machine

def exec (i : Instr) (s : State) : Host.Outcome State Fault Refusal :=
  match i with
  | .hrd off => Sys2Proof.Machine.execHrd off s
  | .hwr off data => Sys2Proof.Machine.execHwr off data s
  | .nop => Sys2Proof.Machine.execNop s
  | .start m => Sys2Proof.Machine.execStart m s
  | .clrerr => Sys2Proof.Machine.execClrerr s
  | .initD => Sys2Proof.Machine.execInitD s
  | .initR => Sys2Proof.Machine.execInitR s
  | .step m => Sys2Proof.Machine.execStep m s
  | .fold m => Sys2Proof.Machine.execFold m s
  | .fin m => Sys2Proof.Machine.execFin m s

end Sys2Proof.Machine
end

