-- ==== Sys2Proof/Machine/Step.lean ====
section
/-! DEFINITION. One step of the machine (00_scope.md R10, R15), and the placing of one word where the next step takes it from. -/

namespace Sys2Proof.Machine

/-- One step: the operation that moves next is performed; where none does, the state waits (DESIGN CHOICE, notes/assumptions/16.md). -/
def step (s : State) : Host.Outcome State Fault Refusal :=
  match s.nextMove with
  | (some i, s') => exec i s'
  | (none, s') => .next s'

/-- A busy block brought to rest, so that a transaction is not held. -/
def State.atRest (s : State) : State := if s.busy then { s with phase := .idle } else s

/-- `s` with one row's word placed where the next step takes it from (DESIGN CHOICE, notes/assumptions/15.md): a selector becomes `MODE` and
`PHASE`; a bus word becomes the next transaction; a command word becomes the data of an HWR to `CMD`. -/
def State.withFetchWord (s : State) (nbits w : Nat) : State :=
  match tableCodeWord nbits w with
  | .selector sel =>
    { s with
      mode := modeOfBit (sel.getLsbD 3)
      phase := (Phase.ofCode (sel.extractLsb' 0 3)).getD s.phase
      turns := [] }
  | .bus b => { s.atRest with port := b :: s.port, turns := [] }
  | .command cw => { s.atRest with port := busWord 1#1 0#16 cw :: s.port, turns := [] }

end Sys2Proof.Machine
end

