-- ==== Sys2Proof/Machine/Reference.lean ====
section
/-! DEFINITION. The reference that claims about whole jobs compare the machine with: PRVSPEC's computation as a function of
lists (95_test_vectors.md section 2, 41_update_loop.md R102 second form and R105 (e)). The machine never calls it. -/

namespace Sys2Proof.Machine

/-- What the update loop carries from word to word: Seed, Multiplier, the used words of the Working Buffer, and the Cursor
counted in words. -/
structure LoopState where
  seed : DWord
  lcg : DWord
  words : List Word
  cursor : Nat
deriving DecidableEq, Repr

/-- One update, in the second form of R102. -/
def LoopState.update (x : LoopState) (m : Word) : LoopState :=
  let s1 := ~~~ (x.seed * x.lcg)
  let ph := x.words.getD x.cursor 0#32 ^^^ s1.extractLsb' 32 32
  let hl := x.lcg.extractLsb' 32 32 ^^^ m
  { seed := s1.extractLsb' 32 32 ++ (s1.extractLsb' 0 32 ^^^ ph ^^^ hl)
    lcg := x.lcg + s1
    words := x.words.set x.cursor ph
    cursor := if x.cursor + 1 = x.words.length then 0 else x.cursor + 1 }

/-- The used words of the Working Buffer (10_state.md R39). -/
def State.usedWords (s : State) : List Word := (List.range (hlm s.hashlen.toNat / 4)).map s.wbWord

/-- The loop's values in a state of the machine. -/
def State.loopView (s : State) : LoopState := ⟨s.seed, s.lcg, s.usedWords, s.hpos.toNat / 4⟩

/-- The message words that are still to be processed, in order of `K` (R105 (b)). -/
def State.wordsToGo (s : State) : List Word :=
  (List.range ((s.c.toNat - s.k.toNat) / 4)).map fun j => s.msgWord (s.k.toNat + 4 * j)

/-- The loop's values after initialisation (40_init_padding.md R95, R96). -/
def State.refInit (s : State) : LoopState :=
  match s.mode with
  | .defaultMode => ⟨Config.cSeed ^^^ s.entropy, Config.cLcg, List.replicate (hlm s.hashlen.toNat / 4) 0#32, 0⟩
  | .resumeMode => ⟨s.ivSeed, s.ivLcg, s.usedWords, 0⟩

/-- The words of the padded message (40_init_padding.md R92, 41_update_loop.md R100). -/
def State.refMessage (s : State) : List Word :=
  (List.range (padLen s.msglen.toNat s.hashlen.toNat / 4)).map fun j => State.msgWord { s with lb := s.padByte } (4 * j)

/-- The output folder on a list of words, then the digest's words (42_fold_finalize.md R110, R111, R113). -/
def foldedWords (h : Nat) (words : List Word) : List Word :=
  (List.range (h / 4)).map fun i => if h = 4 then words.getD i 0#32 else words.getD i 0#32 ^^^ words.getD (h / 4 + i) 0#32

/-- The words of the digest of the job that a state in INIT is about to run. -/
def State.refDigest (s : State) : List Word :=
  foldedWords s.hashlen.toNat (s.refMessage.foldl LoopState.update s.refInit).words

/-- The number of engine steps of a job (41_update_loop.md R106). -/
def State.jobSteps (s : State) : Nat :=
  1 + padLen s.msglen.toNat s.hashlen.toNat / 4 + (if 4 < s.hashlen.toNat then 1 else 0) + 1

end Sys2Proof.Machine
end

