-- ==== Sys2Proof/Safety.lean ====
section
/-! DEFINITION. What claims use: runs, the states that runs start from, and the invariant of the block (10_state.md R45,
60_exceptions.md R147). -/

namespace Sys2Proof.Machine

/-- `n` steps, stopping at the first that does not answer a next state. -/
def runSteps : Nat → State → Host.Outcome State Fault Refusal
  | 0, s => .next s
  | n + 1, s =>
    match step s with
    | .next t => runSteps n t
    | .fault r => .fault r
    | .refused r => .refused r

/-- The block right after reset, with whatever the outside gives it: a message store, the host's transactions, the turns. -/
def State.powerOn (msg : Memory) (port : List BusWord) (turns : List Turn) : State :=
  { State.reset with msg := msg, port := port, turns := turns }

/-- The memories are in their canonical form, and the Working Buffer lists only bytes that exist. -/
def State.memoryOk (s : State) : Prop :=
  s.wb.wf = true ∧ s.wb.below Config.wbBytes = true ∧ s.msg.wf = true

/-- `ERR` holds a code of R141, and `ERRINFO` is clear where no error is recorded (10_state.md R29, R32). -/
def State.errorOk (s : State) : Prop :=
  s.err.toNat ≤ 3 ∧ (s.err = 0#4 → s.errinfo = 0#32)

/-- During a job the digest length is one that START accepts, and no error is recorded (60_exceptions.md R147). -/
def State.jobOk (s : State) : Prop :=
  s.busy = true → jobLength s.hashlen.toNat = true ∧ s.err = 0#4

/-- What holds between the micro-operations of a job (R45 (c) to (e), with the values INIT left in `C` and `LB`). -/
def State.phaseOk (s : State) : Prop :=
  match s.phase with
  | .idle | .init | .done => True
  | .loop =>
    s.c = BitVec.ofNat 64 (padLen s.msglen.toNat s.hashlen.toNat) ∧ s.lb = s.padByte ∧
    s.k.toNat % 4 = 0 ∧ s.k.toNat < s.c.toNat ∧ s.hpos.toNat = s.k.toNat % hlm s.hashlen.toNat
  | .fold =>
    s.c = BitVec.ofNat 64 (padLen s.msglen.toNat s.hashlen.toNat) ∧ s.lb = s.padByte ∧
    s.k = s.c ∧ s.hpos = 0#16 ∧ 4 < s.hashlen.toNat
  | .fin =>
    s.c = BitVec.ofNat 64 (padLen s.msglen.toNat s.hashlen.toNat) ∧ s.lb = s.padByte ∧ s.k = s.c ∧ s.hpos = 0#16

/-- The invariant of the block. -/
def State.Inv (s : State) : Prop := s.memoryOk ∧ s.errorOk ∧ s.jobOk ∧ s.phaseOk

end Sys2Proof.Machine
end

