-- ==== Sys2Proof/Certificates/Slice0/Obligations.lean ====
section
/-! DEFINITION. The statements for the provers. Each docstring names the rule of spec/ it comes from. `exec i s = .next t`
says that the operation completes; a statement about a state in which the digest length is illegal is about a state no run
reaches. -/

open Sys2Proof Sys2Proof.Machine

/-! ## Encodings -/

/-- 30_encoding.md sections 1 and 3: every operation has a legal word that decodes to it, and every legal word decodes to an
operation whose word it is. -/
def Obligations.DecodeInvertsEncode : Prop :=
  (∀ i : Instr, (encode i).legal = true ∧ decode (encode i) = .ok i) ∧
  ∀ w : CodeWord, w.legal = true → ∃ i, decode w = .ok i ∧ encode i = w

/-- R71: the legality of a command word by its fields, the four legal words, and what each decodes to. -/
def Obligations.CommandWordsDecode : Prop :=
  ∀ cw : Word,
    ((cw.extractLsb' 5 27 = 0#27 ∧ (cw.extractLsb' 0 4).toNat ≤ 2 ∧ (cw.extractLsb' 0 4 = 1#4 ∨ cw.getLsbD 4 = false)) ↔
      cw = 0x00000000#32 ∨ cw = 0x00000001#32 ∨ cw = 0x00000011#32 ∨ cw = 0x00000002#32) ∧
    decodeCommand cw =
      (if cw = 0x00000000#32 then .ok .nop
      else if cw = 0x00000001#32 then .ok (.start .defaultMode)
      else if cw = 0x00000011#32 then .ok (.start .resumeMode)
      else if cw = 0x00000002#32 then .ok .clrerr
      else .error (.illegalCommand cw))

/-- R75, with the rows of the other two formats: a word decodes to an operation exactly when it matches that operation's row of
the opcode table under the row's mask. -/
def Obligations.DecodeFollowsTheOpcodeTable : Prop :=
  ∀ w : CodeWord,
    (∀ i, decode w = .ok i → (opcodeRow i).matchesWord w = true) ∧
    ∀ i, (opcodeRow i).matchesWord w = true → ∃ j, decode w = .ok j ∧ opcodeRow j = opcodeRow i

/-- R76: what each selector picks, and that the engine's step is what the selector made of `MODE` and `PHASE` picks. -/
def Obligations.SelectorPicksTheMicroOperation : Prop :=
  (∀ sel : BitVec 4,
    (sel = 0b0001#4 → decodeSelector sel = .ok .initD) ∧
    (sel = 0b1001#4 → decodeSelector sel = .ok .initR) ∧
    (sel &&& 0b0111#4 = 0b0010#4 → decodeSelector sel = .ok (.step (modeOfBit (sel.getLsbD 3)))) ∧
    (sel &&& 0b0111#4 = 0b0011#4 → decodeSelector sel = .ok (.fold (modeOfBit (sel.getLsbD 3)))) ∧
    (sel &&& 0b0111#4 = 0b0100#4 → decodeSelector sel = .ok (.fin (modeOfBit (sel.getLsbD 3)))) ∧
    (sel &&& 0b0111#4 = 0#4 ∨ sel &&& 0b0111#4 = 5#4 → decodeSelector sel = .error (.engineAtRest sel))) ∧
  ∀ s : State, s.sel = modeBit s.mode ++ s.phase.code ∧
    s.engineInstr = (decodeSelector (modeBit s.mode ++ s.phase.code)).toOption

/-- Words written out bit by bit from the encodings of 30_encoding.md section 3 decode to the operations they stand for. -/
def Obligations.SpecWordsDecode : Prop :=
  decode (.bus ⟨0b00000000000000100#17, 0#32⟩) = .ok (.hrd 0x0004) ∧
  decode (.bus ⟨0b10001000000000100#17, 0xDEADBEEF#32⟩) = .ok (.hwr 0x1004 0xDEADBEEF) ∧
  decode (.command 0b00000000000000000000000000010001#32) = .ok (.start .resumeMode) ∧
  decode (.command 0b00000000000000000000000000000010#32) = .ok .clrerr ∧
  decode (.selector 0b1001#4) = .ok .initR ∧
  decode (.selector 0b1011#4) = .ok (.fold .resumeMode)

/-! ## One step of the machine -/

/-- A step runs the decoded operation. With no turn listed: the engine's, decoded from its selector, and, where the engine is
at rest, the transaction at the head of the port. With a turn listed: that agent's, after the turn is taken off the list. The
list of turns is the model's own (notes/assumptions/5.md). -/
def Obligations.StepRunsTheDecodedInstruction : Prop :=
  ∀ (s : State) (i : Instr),
    (s.turns = [] → decode (.selector s.sel) = .ok i → step s = exec i s) ∧
    (∀ w rest, s.turns = [] → s.busy = false → s.port = w :: rest → decode (.bus w) = .ok i → step s = exec i s) ∧
    (∀ ts, s.turns = .engine :: ts → decode (.selector s.sel) = .ok i → step s = exec i { s with turns := ts }) ∧
    (∀ ts w rest, s.turns = .host :: ts → s.port = w :: rest → decode (.bus w) = .ok i →
      step s = exec i { s with turns := ts })

/-- Where no agent has a step, the machine waits: the model's choice (notes/assumptions/16.md) for "the engine simply has no
step" of 60_exceptions.md section 7. -/
def Obligations.StepWaitsWhereNothingMoves : Prop :=
  ∀ s : State, s.busy = false →
    (s.turns = [] → s.port = [] → step s = .next s) ∧
    (∀ ts, s.turns = .engine :: ts → step s = .next { s with turns := ts }) ∧
    (∀ ts, s.turns = .host :: ts → s.port = [] → step s = .next { s with turns := ts })

/-- 70_reset_and_hazards.md section 1: the reset input, in any phase: the registers it sets, `BUSY` and `DONE` after it, that no
Working Buffer byte has a value, and that a held transaction is dropped. That the turn is a list entry and that the message store
stays are the model's (notes/assumptions/7.md). -/
def Obligations.ResetInputSetsTheResetState : Prop :=
  ∀ (s : State) (ts : List Turn), s.turns = .reset :: ts →
    ∃ t, step s = .next t ∧
      t.phase = .idle ∧ t.mode = .defaultMode ∧ t.err = 0#4 ∧ t.errinfo = 0#32 ∧ t.hashlen = 0#32 ∧ t.msglen = 0#32 ∧
      t.entropyLo = 0#32 ∧ t.entropyHi = 0#32 ∧ t.iv0 = 0#32 ∧ t.iv1 = 0#32 ∧ t.iv2 = 0#32 ∧ t.iv3 = 0#32 ∧
      t.busy = false ∧ t.done = false ∧ (∀ a, t.wb.lookup a = none) ∧ t.msg = s.msg ∧ t.turns = ts ∧
      (∀ w rest, s.port = w :: rest → s.busy = true → w.header ≠ 0x00004#17 → w.header ≠ 0x00008#17 → t.port = rest) ∧
      (s.busy = false → t.port = s.port)

/-- 10_state.md section 8: the registers the spec gives a reset value, and that no Working Buffer byte has a value. -/
def Obligations.StateRightAfterReset : Prop :=
  State.reset.phase = .idle ∧ State.reset.mode = .defaultMode ∧ State.reset.err = 0#4 ∧ State.reset.errinfo = 0#32 ∧
  State.reset.hashlen = 0#32 ∧ State.reset.msglen = 0#32 ∧ State.reset.entropyLo = 0#32 ∧ State.reset.entropyHi = 0#32 ∧
  State.reset.iv0 = 0#32 ∧ State.reset.iv1 = 0#32 ∧ State.reset.iv2 = 0#32 ∧ State.reset.iv3 = 0#32 ∧
  State.reset.busy = false ∧ State.reset.done = false ∧ ∀ a, State.reset.wb.lookup a = none

/-- The model's move that places a message (notes/assumptions/3.md): it has no effect during a job, and otherwise offset `a`
of the message port reads byte `a` of what was placed. -/
def Obligations.MessageIsPlacedOnlyAtRest : Prop :=
  ∀ (s : State) (bytes : List Byte) (ts : List Turn), s.turns = .message bytes :: ts →
    (s.busy = true → step s = .next { s with turns := ts }) ∧
    (s.busy = false → ∃ t, step s = .next t ∧
      t = { s with turns := ts, msg := t.msg, msgGen := t.msgGen } ∧ ∀ a b, bytes[a]? = some b → t.msgByte a = b)

/-! ## Invariants -/

/-- The invariant holds right after reset, whatever message, transactions and turns the outside gives. -/
def Obligations.InvHoldsAtPowerOn : Prop :=
  ∀ (msg : Memory) (port : List BusWord) (turns : List Turn), msg.wf = true → (State.powerOn msg port turns).Inv

/-- 10_state.md section 7: every step, of either agent or of the reset input, keeps the invariant. -/
def Obligations.EveryStepKeepsInv : Prop :=
  ∀ s t : State, s.Inv → step s = .next t → t.Inv

/-- 00_scope.md section 5: in a state that meets the invariant no step stops. -/
def Obligations.NoStepStops : Prop :=
  ∀ s : State, s.Inv → ∃ t, step s = .next t

/-- R45, clause by clause, for every state reached from reset. -/
def Obligations.ReachableStatesMeetTheInvariants : Prop :=
  ∀ (msg : Memory) (port : List BusWord) (turns : List Turn) (n : Nat) (t : State), msg.wf = true →
    runSteps n (State.powerOn msg port turns) = .next t → (t.phase = .loop ∨ t.phase = .fold ∨ t.phase = .fin) →
    (0 < hlm t.hashlen.toNat ∧ hlm t.hashlen.toNat % 4 = 0 ∧ t.hashlen.toNat ≤ hlm t.hashlen.toNat ∧
      hlm t.hashlen.toNat ≤ Config.wbBytes) ∧
    (t.hpos.toNat % 4 = 0 ∧ t.hpos.toNat < hlm t.hashlen.toNat) ∧
    (t.k.toNat % 4 = 0 ∧ t.c.toNat % 4 = 0 ∧ t.k.toNat ≤ t.c.toNat) ∧
    (t.phase = .loop → t.hpos.toNat = t.k.toNat % hlm t.hashlen.toNat ∧ t.k.toNat < t.c.toNat) ∧
    (t.phase = .fold ∨ t.phase = .fin → t.k = t.c ∧ t.hpos = 0#16)

/-- 60_exceptions.md section 4: in every state reached from reset, no error is recorded while a job runs, and `ERR` is one of the
codes 0 to 3. -/
def Obligations.ReachableJobsHaveNoError : Prop :=
  ∀ (msg : Memory) (port : List BusWord) (turns : List Turn) (n : Nat) (t : State), msg.wf = true →
    runSteps n (State.powerOn msg port turns) = .next t → (t.busy = true → t.err = 0#4) ∧ t.err.toNat ≤ 3

/-! ## Host transactions -/

/-- R122: HRD at every offset: held, or the value of what the offset reaches, or `E_ADDR` with the first error kept and 0
returned. How the model writes it: the returned word is left in `hrdata` (notes/assumptions/6.md), a transaction that is over
leaves `port` (4.md), a held one answers the same state (14.md). -/
def Obligations.HrdAnswersOrRaises : Prop :=
  ∀ (s : State) (off : BitVec 16),
    (s.busy = true → off ≠ 0x0004#16 → off ≠ 0x0008#16 → exec (.hrd off) s = .next s) ∧
    (s.busy = false ∨ off = 0x0004#16 ∨ off = 0x0008#16 →
      (∀ v : Word,
        (off = 0x0000#16 ∧ v = 0#32) ∨ (off = 0x0004#16 ∧ v = s.statusWord) ∨ (off = 0x0008#16 ∧ v = s.errinfo) ∨
        (off = 0x0010#16 ∧ v = s.hashlen) ∨ (off = 0x0014#16 ∧ v = s.msglen) ∨
        (off = 0x0018#16 ∧ v = s.entropyLo) ∨ (off = 0x001C#16 ∧ v = s.entropyHi) ∨
        (off = 0x0020#16 ∧ v = s.iv0) ∨ (off = 0x0024#16 ∧ v = s.iv1) ∨ (off = 0x0028#16 ∧ v = s.iv2) ∨ (off = 0x002C#16 ∧ v = s.iv3) ∨
        (∃ i, 4 * i < Config.wbBytes ∧ off.toNat = 0x1000 + 4 * i ∧ v = s.wbWord i) →
        exec (.hrd off) s = .next { s with hrdata := v, port := s.port.tail }) ∧
      (off.toNat % 4 ≠ 0 ∨ off = 0x000C#16 ∨ (0x0030 ≤ off.toNat ∧ off.toNat < 0x1000) ∨ 0x1000 + Config.wbBytes ≤ off.toNat →
        exec (.hrd off) s = .next { s with
          err := if s.err = 0#4 then 1#4 else s.err
          errinfo := if s.err = 0#4 then off.setWidth 32 else s.errinfo
          hrdata := 0#32
          port := s.port.tail }))

/-- R123: HWR at every offset but `CMD`: held, or the register or window word takes all 32 bits, or the write to a read-only
register is dropped, or `E_ADDR`; and at `CMD` the data is performed as a command word or raises `E_CMD`. A transaction that is over leaves `port`
(notes/assumptions/4.md), a held one answers the same state (14.md). -/
def Obligations.HwrWritesOrRaises : Prop :=
  ∀ (s : State) (off : BitVec 16) (data : Word),
    (s.busy = true → exec (.hwr off data) s = .next s) ∧
    (s.busy = false →
      (off = 0x0000#16 →
        (∀ i, decodeCommand data = .ok i → exec (.hwr off data) s = exec i s) ∧
        (∀ e, decodeCommand data = .error e → exec (.hwr off data) s = .next { s with
          err := if s.err = 0#4 then 2#4 else s.err
          errinfo := if s.err = 0#4 then data else s.errinfo
          port := s.port.tail })) ∧
      (off = 0x0004#16 ∨ off = 0x0008#16 → exec (.hwr off data) s = .next { s with port := s.port.tail }) ∧
      (off = 0x0010#16 → exec (.hwr off data) s = .next { s with hashlen := data, port := s.port.tail }) ∧
      (off = 0x0014#16 → exec (.hwr off data) s = .next { s with msglen := data, port := s.port.tail }) ∧
      (off = 0x0018#16 → exec (.hwr off data) s = .next { s with entropyLo := data, port := s.port.tail }) ∧
      (off = 0x001C#16 → exec (.hwr off data) s = .next { s with entropyHi := data, port := s.port.tail }) ∧
      (off = 0x0020#16 → exec (.hwr off data) s = .next { s with iv0 := data, port := s.port.tail }) ∧
      (off = 0x0024#16 → exec (.hwr off data) s = .next { s with iv1 := data, port := s.port.tail }) ∧
      (off = 0x0028#16 → exec (.hwr off data) s = .next { s with iv2 := data, port := s.port.tail }) ∧
      (off = 0x002C#16 → exec (.hwr off data) s = .next { s with iv3 := data, port := s.port.tail }) ∧
      (∀ i, 4 * i < Config.wbBytes → off.toNat = 0x1000 + 4 * i → ∃ t, exec (.hwr off data) s = .next t ∧
        t = { s with wb := t.wb, port := s.port.tail } ∧ t.wbWord i = data ∧
        ∀ a, a < 4 * i ∨ 4 * i + 4 ≤ a → t.wbByte a = s.wbByte a) ∧
      (off.toNat % 4 ≠ 0 ∨ off = 0x000C#16 ∨ (0x0030 ≤ off.toNat ∧ off.toNat < 0x1000) ∨ 0x1000 + Config.wbBytes ≤ off.toNat →
        exec (.hwr off data) s = .next { s with
          err := if s.err = 0#4 then 1#4 else s.err
          errinfo := if s.err = 0#4 then 0x80000000#32 ||| off.setWidth 32 else s.errinfo
          port := s.port.tail }))

/-- 43_host_interface.md section 1: whatever the host does in its turn while a job runs, the block's own state is as it was,
and only a read of `STATUS` or of `ERRINFO` is performed. -/
def Obligations.HostCannotTouchARunningJob : Prop :=
  ∀ (s : State) (ts : List Turn), s.turns = .host :: ts → s.busy = true →
    (∀ w rest, s.port = w :: rest → w.header ≠ 0x00004#17 → w.header ≠ 0x00008#17 → step s = .next { s with turns := ts }) ∧
    (∀ w rest, s.port = w :: rest → w.header = 0x00004#17 →
      step s = .next { s with turns := ts, hrdata := s.statusWord, port := rest }) ∧
    (∀ w rest, s.port = w :: rest → w.header = 0x00008#17 →
      step s = .next { s with turns := ts, hrdata := s.errinfo, port := rest })

/-- R124: NOP changes no state of the block; held while `BUSY = 1`. The transaction that carried it leaves `port`
(notes/assumptions/4.md, 14.md). -/
def Obligations.NopChangesNothing : Prop :=
  ∀ s : State, (s.busy = true → exec .nop s = .next s) ∧
    (s.busy = false → exec .nop s = .next { s with port := s.port.tail })

/-- R125: START is held, ignored while an error is recorded, refused with `E_HASHLEN`, or begins the job. The transaction that
carried it leaves `port` unless it is held (notes/assumptions/4.md, 14.md). -/
def Obligations.StartBeginsIgnoresOrRefuses : Prop :=
  ∀ (s : State) (m : Mode),
    (s.busy = true → exec (.start m) s = .next s) ∧
    (s.busy = false →
      (s.err ≠ 0#4 → exec (.start m) s = .next { s with port := s.port.tail }) ∧
      (s.err = 0#4 → s.hashlen.toNat < 4 ∨ s.hashlen.toNat % 4 ≠ 0 ∨ Config.wbBytes < hlm s.hashlen.toNat →
        exec (.start m) s = .next { s with err := 3#4, errinfo := s.hashlen, port := s.port.tail }) ∧
      (s.err = 0#4 → 4 ≤ s.hashlen.toNat → s.hashlen.toNat % 4 = 0 → hlm s.hashlen.toNat ≤ Config.wbBytes →
        exec (.start m) s = .next { s with mode := m, phase := .init, port := s.port.tail }))

/-- R126: CLRERR clears `ERR` and `ERRINFO` and changes nothing else of the block; held while `BUSY = 1`. The transaction that
carried it leaves `port` (notes/assumptions/4.md, 14.md). -/
def Obligations.ClrerrClearsTheError : Prop :=
  ∀ s : State, (s.busy = true → exec .clrerr s = .next s) ∧
    (s.busy = false → exec .clrerr s = .next { s with err := 0#4, errinfo := 0#32, port := s.port.tail })

/-- 60_exceptions.md section 2: while an error is recorded it stays, with its information word, until CLRERR. -/
def Obligations.FirstErrorIsKept : Prop :=
  ∀ (i : Instr) (s t : State), s.err ≠ 0#4 → exec i s = .next t → i ≠ .clrerr → i ≠ .hwr 0x0000#16 0x00000002#32 →
    t.err = s.err ∧ t.errinfo = s.errinfo

/-- R142 and R144: an operation that records an error changes nothing else, and which operation records which code with which
information word. -/
def Obligations.RaisedErrorsAreRecorded : Prop :=
  ∀ (i : Instr) (s t : State), exec i s = .next t → t.err ≠ s.err → t.err ≠ 0#4 →
    s.err = 0#4 ∧ t = { s with err := t.err, errinfo := t.errinfo, hrdata := t.hrdata, port := s.port.tail } ∧
    match i with
    | .hrd off => t.err = 1#4 ∧ t.errinfo = (0#1 ++ 0#15) ++ off ∧ t.hrdata = 0#32
    | .hwr off data => t.hrdata = s.hrdata ∧
        ((t.err = 1#4 ∧ off ≠ 0x0000#16 ∧ t.errinfo = (1#1 ++ 0#15) ++ off) ∨ (t.err = 2#4 ∧ off = 0x0000#16 ∧ t.errinfo = data) ∨
          (t.err = 3#4 ∧ off = 0x0000#16 ∧ t.errinfo = s.hashlen))
    | .start _ => t.hrdata = s.hrdata ∧ t.err = 3#4 ∧ t.errinfo = s.hashlen
    | .nop | .clrerr | .initD | .initR | .step _ | .fold _ | .fin _ => False

/-- R31, with the views `BUSY` and `DONE` of R28: every bit of `STATUS`, what a read returns in any phase, that `BUSY` and `DONE`
are never both 1, and that a write is ignored. -/
def Obligations.StatusWordLayout : Prop :=
  ∀ s : State,
    (∀ j, s.statusWord.getLsbD j =
      (if j = 0 then s.busy else if j = 1 then s.done else if 8 ≤ j ∧ j < 12 then s.err.getLsbD (j - 8) else false)) ∧
    (s.busy = true ↔ s.phase = .init ∨ s.phase = .loop ∨ s.phase = .fold ∨ s.phase = .fin) ∧
    (s.done = true ↔ s.phase = .done) ∧
    ¬ (s.busy = true ∧ s.done = true) ∧
    exec (.hrd 0x0004#16) s = .next { s with hrdata := s.statusWord, port := s.port.tail } ∧
    ∀ data, s.busy = false → exec (.hwr 0x0004#16 data) s = .next { s with port := s.port.tail }

/-- R54: the two 64-bit values of the state vector, bytewise and as pairs of registers. -/
def Obligations.StateVectorHalves : Prop :=
  ∀ s : State,
    (∀ b, b < 8 → s.ivLcg.extractLsb' (8 * b) 8 = s.ivByte b ∧ s.ivSeed.extractLsb' (8 * b) 8 = s.ivByte (8 + b)) ∧
    s.ivLcg = s.iv1 ++ s.iv0 ∧ s.ivSeed = s.iv3 ++ s.iv2

/-- 20_memory.md section 1: byte `n` of the Working Buffer is the byte of its word that `n mod 4` names. -/
def Obligations.WorkingBufferByteOrder : Prop :=
  ∀ (s : State) (n : Nat), s.wbByte n = (s.wbWord (n / 4)).extractLsb' (8 * (n % 4)) 8

/-- 43_host_interface.md sections 2 and 3: a window word written by the host is what the host reads back, and the other window
words are as they were. -/
def Obligations.WindowWriteThenRead : Prop :=
  ∀ (s : State) (i j : Nat) (data : Word), s.busy = false → 4 * i < Config.wbBytes → 4 * j < Config.wbBytes →
    ∃ t u, exec (.hwr (BitVec.ofNat 16 (0x1000 + 4 * i)) data) s = .next t ∧
      exec (.hrd (BitVec.ofNat 16 (0x1000 + 4 * j))) t = .next u ∧
      u.hrdata = (if j = i then data else s.wbWord j) ∧ u.wb = t.wb

/-! ## Micro-operations -/

/-- R95: INIT.D: when the selector picks it, every register it writes, the zero-fill, and that every byte past it stays. -/
def Obligations.InitDResult : Prop :=
  ∀ s : State,
    (s.phase = .init → s.mode = .defaultMode → s.engineInstr = some .initD) ∧
    (4 * (hlm s.hashlen.toNat / 4) ≤ Config.wbBytes →
      ∃ t, exec .initD s = .next t ∧
        t = { s with
          wb := t.wb
          seed := Config.cSeed ^^^ (s.entropyHi ++ s.entropyLo : DWord)
          lcg := Config.cLcg
          hpos := 0#16
          lb := s.padByte
          c := BitVec.ofNat 64 (padLen s.msglen.toNat s.hashlen.toNat)
          k := 0#64
          phase := .loop } ∧
        (∀ i, i < hlm s.hashlen.toNat / 4 → t.wbWord i = 0#32) ∧
        ∀ a, 4 * (hlm s.hashlen.toNat / 4) ≤ a → t.wbByte a = s.wbByte a)

/-- R96: INIT.R: when the selector picks it, every register it writes, and that nothing else changes. -/
def Obligations.InitRResult : Prop :=
  ∀ s : State,
    (s.phase = .init → s.mode = .resumeMode → s.engineInstr = some .initR) ∧
    exec .initR s = .next { s with
      lcg := s.iv1 ++ s.iv0
      seed := s.iv3 ++ s.iv2
      hpos := 0#16
      lb := s.padByte
      c := BitVec.ofNat 64 (padLen s.msglen.toNat s.hashlen.toNat)
      k := 0#64
      phase := .loop }

/-- R102: STEP in the function form of the rule, with the cursor, the counter and the phase of lines 10 and after; every byte
outside the word at the cursor stays. -/
def Obligations.StepResult : Prop :=
  ∀ (s : State) (m : Mode),
    (s.phase = .loop → s.engineInstr = some (.step s.mode)) ∧
    (4 * (s.hpos.toNat / 4) + 4 ≤ Config.wbBytes →
      let s1 : DWord := ~~~ (s.seed * s.lcg)
      let ph : Word := s.wbWord (s.hpos.toNat / 4) ^^^ s1.extractLsb' 32 32
      let hl : Word := s.lcg.extractLsb' 32 32 ^^^ s.msgWord s.k.toNat
      ∃ t, exec (.step m) s = .next t ∧
        t = { s with
          wb := t.wb
          seed := s1.extractLsb' 32 32 ++ (s1.extractLsb' 0 32 ^^^ ph ^^^ hl)
          lcg := s.lcg + s1
          hpos := if (s.hpos + 4#16).toNat = hlm s.hashlen.toNat then 0#16 else s.hpos + 4#16
          k := s.k + 4#64
          phase := if s.k + 4#64 = s.c then (if hlm s.hashlen.toNat > s.hashlen.toNat then .fold else .fin) else s.phase } ∧
        t.wbWord (s.hpos.toNat / 4) = ph ∧
        ∀ a, a < 4 * (s.hpos.toNat / 4) ∨ 4 * (s.hpos.toNat / 4) + 4 ≤ a → t.wbByte a = s.wbByte a)

/-- R110: FOLD: lane 1 is exclusive-ored into lane 0, every byte from lane 1 up stays, and FIN is next. -/
def Obligations.FoldResult : Prop :=
  ∀ (s : State) (m : Mode),
    (s.phase = .fold → s.engineInstr = some (.fold s.mode)) ∧
    (4 * (2 * (s.hashlen.toNat / 4)) ≤ Config.wbBytes →
      ∃ t, exec (.fold m) s = .next t ∧ t = { s with wb := t.wb, phase := .fin } ∧
        (∀ i, i < s.hashlen.toNat / 4 → t.wbWord i = s.wbWord i ^^^ s.wbWord (s.hashlen.toNat / 4 + i)) ∧
        ∀ a, 4 * (s.hashlen.toNat / 4) ≤ a → t.wbByte a = s.wbByte a)

/-- R112: FIN writes `PHASE` and nothing else; `DONE` becomes 1 and `BUSY` 0. -/
def Obligations.FinResult : Prop :=
  ∀ (s : State) (m : Mode),
    (s.phase = .fin → s.engineInstr = some (.fin s.mode)) ∧
    ∃ t, exec (.fin m) s = .next t ∧ t = { s with phase := .done } ∧ t.done = true ∧ t.busy = false

/-- The model's one fault (notes/assumptions/11.md): a micro-operation that would touch a Working Buffer word that does not
exist stops. -/
def Obligations.EngineStopsOutsideTheBuffer : Prop :=
  ∀ (s : State) (m : Mode),
    (Config.wbBytes < 4 * (hlm s.hashlen.toNat / 4) → exec .initD s = .fault .wbRange) ∧
    (Config.wbBytes < 4 * (s.hpos.toNat / 4) + 4 → exec (.step m) s = .fault .wbRange) ∧
    (Config.wbBytes < 4 * (2 * (s.hashlen.toNat / 4)) → exec (.fold m) s = .fault .wbRange)

/-- R100: the three cases of the message word. -/
def Obligations.MessageWordCases : Prop :=
  ∀ (s : State) (k : Nat),
    (k + 4 ≤ s.msglen.toNat →
      s.msgWord k = (s.msgByte (k + 3) ++ s.msgByte (k + 2)) ++ (s.msgByte (k + 1) ++ s.msgByte k)) ∧
    (s.msglen.toNat = k + 3 → s.msgWord k = (s.lb ++ s.msgByte (k + 2)) ++ (s.msgByte (k + 1) ++ s.msgByte k)) ∧
    (s.msglen.toNat = k + 2 → s.msgWord k = (s.lb ++ s.lb) ++ (s.msgByte (k + 1) ++ s.msgByte k)) ∧
    (s.msglen.toNat = k + 1 → s.msgWord k = (s.lb ++ s.lb) ++ (s.lb ++ s.msgByte k)) ∧
    (s.msglen.toNat ≤ k → s.msgWord k = (s.lb ++ s.lb) ++ (s.lb ++ s.lb))

/-- R91: the pad byte, and that it differs from the last message byte in every bit. -/
def Obligations.PadByteComplementsTheLastByte : Prop :=
  ∀ s : State,
    (s.msglen = 0#32 → s.padByte = 0xFF#8) ∧
    (0 < s.msglen.toNat → s.padByte = ~~~ s.msgByte (s.msglen.toNat - 1) ∧
      ∀ b, b < 8 → s.padByte.getLsbD b ≠ (s.msgByte (s.msglen.toNat - 1)).getLsbD b)

/-- R92: the padded length of a legal digest length is built of least multiples not below. -/
def Obligations.PaddedLengthIsLeast : Prop :=
  ∀ (l h a : Nat), 4 ≤ h → h % 4 = 0 → IsLeast {n | 4 ∣ n ∧ l ≤ n} a →
    IsLeast {n | hlm h ∣ n ∧ a + h ≤ n} (padLen l h)

/-- 40_init_padding.md section 1: the padded length of a legal digest length is a multiple of `HLM` and of 4, leaves room for
one lane of pad bytes, and is less than one `HLM` above that. -/
def Obligations.PaddedLengthBounds : Prop :=
  ∀ (l h : Nat), 4 ≤ h → h % 4 = 0 →
    hlm h ∣ padLen l h ∧ 4 ∣ padLen l h ∧ l + h ≤ padLen l h ∧ padLen l h < l + 3 + h + hlm h

/-- 40_init_padding.md section 1: neither `C` nor `K` wraps: the bounds of the padded length, and in a reachable loop `C` holds it
whole and the advance of `K` is exact. The bound `2^32 + 3 * 0xF000` holds for a length that START accepts. -/
def Obligations.PaddedLengthNeverWraps : Prop :=
  (∀ (l h : Nat), l < 2 ^ 32 → 4 ≤ h → h % 4 = 0 → h ≤ Config.wbBytes →
    padLen l h ≤ (l + 3) + h + (hlm h - 1) ∧ padLen l h < 2 ^ 33 ∧
    (hlm h ≤ Config.wbBytes → padLen l h < 2 ^ 32 + 3 * 0xF000)) ∧
  ∀ s : State, s.Inv → s.phase = .loop →
    s.c.toNat = padLen s.msglen.toNat s.hashlen.toNat ∧ (s.k + 4#64).toNat = s.k.toNat + 4

/-! ## Isolation -/

/-- R101: no operation reads a message byte at or past `MSGLEN`: a message store that agrees below `MSGLEN` gives the same
next state. -/
def Obligations.NoReadPastTheMessage : Prop :=
  ∀ (i : Instr) (s t : State) (msg : Memory) (gen : Nat),
    (∀ a, a < s.msglen.toNat → State.msgByte { s with msg := msg, msgGen := gen } a = s.msgByte a) →
    exec i s = .next t → exec i { s with msg := msg, msgGen := gen } = .next { t with msg := msg, msgGen := gen }

/-- 10_state.md section 6: no transaction reads a hidden register: HRD gives the same answer and the same visible state whatever
they hold. -/
def Obligations.HiddenRegistersCannotBeRead : Prop :=
  ∀ (s t : State) (off : BitVec 16) (x y k c : DWord) (h : BitVec 16) (b : Byte) (m : Mode),
    exec (.hrd off) s = .next t →
    exec (.hrd off) { s with seed := x, lcg := y, k := k, c := c, hpos := h, lb := b, mode := m } =
      .next { t with seed := x, lcg := y, k := k, c := c, hpos := h, lb := b, mode := m }

/-- 40_init_padding.md sections 2 and 3: INIT.R does not read `ENTROPY`, and INIT.D does not read `IV`. -/
def Obligations.InitialisationsReadOnlyTheirOwnInput : Prop :=
  ∀ (s t : State) (a b c d : Word),
    (exec .initR s = .next t → exec .initR { s with entropyLo := a, entropyHi := b } =
      .next { t with entropyLo := a, entropyHi := b }) ∧
    (exec .initD s = .next t → exec .initD { s with iv0 := a, iv1 := b, iv2 := c, iv3 := d } =
      .next { t with iv0 := a, iv1 := b, iv2 := c, iv3 := d })

/-! ## Rules about the whole machine -/

/-- 10_state.md section 2: `PHASE` moves only along the edges of the sequencer, or to IDLE by the reset input. -/
def Obligations.PhaseMovesAlongItsEdges : Prop :=
  ∀ s t : State, step s = .next t →
    t.phase = s.phase ∨
    ((s.phase = .idle ∨ s.phase = .done) ∧ t.phase = .init) ∨
    (s.phase = .init ∧ t.phase = .loop) ∨
    (s.phase = .loop ∧ (t.phase = .fold ∨ t.phase = .fin)) ∨
    (s.phase = .fold ∧ t.phase = .fin) ∨
    (s.phase = .fin ∧ t.phase = .done) ∨
    (t.phase = .idle ∧ ∃ ts, s.turns = .reset :: ts)

/-- 10_state.md section 2: an operation that changes `MODE` is an accepted START, which copies its field `M`. -/
def Obligations.ModeIsWrittenOnlyByStart : Prop :=
  ∀ (i : Instr) (s t : State), exec i s = .next t →
    t.mode = s.mode ∨
    ∃ m, (i = .start m ∨ i = .hwr 0x0000#16 (startWord m)) ∧ t.mode = m ∧ t.phase = .init ∧ s.busy = false ∧ s.err = 0#4

/-- 10_state.md sections 1, 2 and 5: which operations write the engine's registers. -/
def Obligations.EngineRegisterWriters : Prop :=
  ∀ (i : Instr) (s t : State), exec i s = .next t →
    (t.seed ≠ s.seed ∨ t.lcg ≠ s.lcg ∨ t.k ≠ s.k ∨ t.hpos ≠ s.hpos → i = .initD ∨ i = .initR ∨ ∃ m, i = .step m) ∧
    (t.c ≠ s.c ∨ t.lb ≠ s.lb → i = .initD ∨ i = .initR)

/-- 10_state.md section 5: which bytes of the Working Buffer an operation can change: the zero-filled words, the word at the
cursor, lane 0, the word of the window that a host write names when no job runs. -/
def Obligations.WorkingBufferWriters : Prop :=
  ∀ (i : Instr) (s t : State), exec i s = .next t → ∀ a, t.wbByte a ≠ s.wbByte a →
    (i = .initD ∧ a < 4 * (hlm s.hashlen.toNat / 4)) ∨
    (∃ m, i = .step m ∧ 4 * (s.hpos.toNat / 4) ≤ a ∧ a < 4 * (s.hpos.toNat / 4) + 4) ∨
    (∃ m, i = .fold m ∧ a < 4 * (s.hashlen.toNat / 4)) ∨
    (∃ off data, i = .hwr off data ∧ s.busy = false ∧ off.toNat % 4 = 0 ∧ off.toNat ≤ 0x1000 + a ∧ 0x1000 + a < off.toNat + 4)

/-- 10_state.md section 4: a job register changes only by a host write of its new value at its own offset, when no job runs. -/
def Obligations.JobRegisterWriters : Prop :=
  ∀ (i : Instr) (s t : State), exec i s = .next t →
    (t.hashlen ≠ s.hashlen → i = .hwr 0x0010#16 t.hashlen ∧ s.busy = false) ∧
    (t.msglen ≠ s.msglen → i = .hwr 0x0014#16 t.msglen ∧ s.busy = false) ∧
    (t.entropyLo ≠ s.entropyLo → i = .hwr 0x0018#16 t.entropyLo ∧ s.busy = false) ∧
    (t.entropyHi ≠ s.entropyHi → i = .hwr 0x001C#16 t.entropyHi ∧ s.busy = false) ∧
    (t.iv0 ≠ s.iv0 → i = .hwr 0x0020#16 t.iv0 ∧ s.busy = false) ∧
    (t.iv1 ≠ s.iv1 → i = .hwr 0x0024#16 t.iv1 ∧ s.busy = false) ∧
    (t.iv2 ≠ s.iv2 → i = .hwr 0x0028#16 t.iv2 ∧ s.busy = false) ∧
    (t.iv3 ≠ s.iv3 → i = .hwr 0x002C#16 t.iv3 ∧ s.busy = false)

/-- The frame of every operation: what it leaves as it was, register by register, and every byte of the memories that it
does not store to. -/
def Obligations.FrameOfEachInstruction : Prop :=
  ∀ (i : Instr) (s t : State), exec i s = .next t →
    (∀ a, t.msgByte a = s.msgByte a) ∧
    match i with
    | .hrd _ => t = { s with err := t.err, errinfo := t.errinfo, hrdata := t.hrdata, port := t.port }
    | .hwr off data =>
      t = { s with
        hashlen := t.hashlen, msglen := t.msglen, entropyLo := t.entropyLo, entropyHi := t.entropyHi
        iv0 := t.iv0, iv1 := t.iv1, iv2 := t.iv2, iv3 := t.iv3, wb := t.wb
        mode := t.mode, phase := t.phase, err := t.err, errinfo := t.errinfo, port := t.port } ∧
      (t.mode ≠ s.mode ∨ t.phase ≠ s.phase → off = 0x0000#16 ∧ ∃ m, data = startWord m) ∧
      ∀ a, 0x1000 + a < off.toNat ∨ off.toNat + 4 ≤ 0x1000 + a → t.wbByte a = s.wbByte a
    | .nop => t = { s with port := t.port }
    | .start _ => t = { s with mode := t.mode, phase := t.phase, err := t.err, errinfo := t.errinfo, port := t.port }
    | .clrerr => t = { s with err := t.err, errinfo := t.errinfo, port := t.port }
    | .initD =>
      t = { s with wb := t.wb, seed := t.seed, lcg := t.lcg, hpos := t.hpos, lb := t.lb, c := t.c, k := t.k, phase := t.phase } ∧
      ∀ a, 4 * (hlm s.hashlen.toNat / 4) ≤ a → t.wbByte a = s.wbByte a
    | .initR =>
      t = { s with seed := t.seed, lcg := t.lcg, hpos := t.hpos, lb := t.lb, c := t.c, k := t.k, phase := t.phase }
    | .step _ =>
      t = { s with wb := t.wb, seed := t.seed, lcg := t.lcg, hpos := t.hpos, k := t.k, phase := t.phase } ∧
      ∀ a, a < 4 * (s.hpos.toNat / 4) ∨ 4 * (s.hpos.toNat / 4) + 4 ≤ a → t.wbByte a = s.wbByte a
    | .fold _ =>
      t = { s with wb := t.wb, phase := t.phase } ∧ ∀ a, 4 * (s.hashlen.toNat / 4) ≤ a → t.wbByte a = s.wbByte a
    | .fin _ => t = { s with phase := t.phase }

/-! ## Jobs -/

/-- 41_update_loop.md section 3: from any point of the loop, with no turn of another listed, the rest of the loop is the left
fold of the update over the message words still to come, and FOLD or FIN is next. -/
def Obligations.LoopIsALeftFold : Prop :=
  ∀ s : State, s.Inv → s.turns = [] → s.phase = .loop →
    ∃ t, runSteps ((s.c.toNat - s.k.toNat) / 4) s = .next t ∧
      t.loopView = s.wordsToGo.foldl LoopState.update s.loopView ∧
      t.phase = if 4 < s.hashlen.toNat then .fold else .fin

/-- R106: with no turn of another listed (notes/assumptions/5.md), a job is busy for exactly `1 + C/4 + (1 if HASHLEN > 4) + 1` engine steps and then done,
and in every STEP `C - K` goes down by 4. -/
def Obligations.JobReachesDone : Prop :=
  (∀ s : State, s.Inv → s.turns = [] → s.phase = .init →
    (∀ n, n < s.jobSteps → ∃ u, runSteps n s = .next u ∧ u.busy = true) ∧
    ∃ t, runSteps s.jobSteps s = .next t ∧ t.phase = .done) ∧
  ∀ (s t : State) (m : Mode), s.Inv → s.phase = .loop → exec (.step m) s = .next t →
    (s.c.toNat - s.k.toNat) % 4 = 0 ∧ t.c.toNat - t.k.toNat + 4 = s.c.toNat - s.k.toNat

/-- 42_fold_finalize.md section 3: with no turn of another listed, a whole job leaves the reference's digest in the first words of
the Working Buffer, in either mode, lane 1 as the loop left it, and every other piece of state as the section lists it. -/
def Obligations.JobComputesTheDigest : Prop :=
  ∀ s : State, s.Inv → s.turns = [] → s.phase = .init →
    ∃ t, runSteps s.jobSteps s = .next t ∧
      (List.range (s.hashlen.toNat / 4)).map t.wbWord = s.refDigest ∧
      (∀ i, s.hashlen.toNat / 4 ≤ i → i < hlm s.hashlen.toNat / 4 →
        t.wbWord i = (s.refMessage.foldl LoopState.update s.refInit).words.getD i 0#32) ∧
      t = { s with
        wb := t.wb
        seed := (s.refMessage.foldl LoopState.update s.refInit).seed
        lcg := (s.refMessage.foldl LoopState.update s.refInit).lcg
        hpos := 0#16
        lb := s.padByte
        c := BitVec.ofNat 64 (padLen s.msglen.toNat s.hashlen.toNat)
        k := BitVec.ofNat 64 (padLen s.msglen.toNat s.hashlen.toNat)
        phase := .done } ∧
      ∀ a, hlm s.hashlen.toNat ≤ a → t.wbByte a = s.wbByte a
end

