-- ==== Sys2Proof/Laws/Memory.lean ====
section
/-! SUPPORT. What the memory operations do: read after write, the canonical form, the bound; then the same for Working Buffer
words, the zero-fill and FOLD's loop. -/

namespace Sys2Proof.Machine

/-! ## Bytes -/

theorem Memory.lookup_put (m : Memory) (a b : Nat) (v : Byte) :
    (m.put a v).lookup b = if b = a then some v else m.lookup b := by
  induction m with
  | nil => simp [Memory.put, Memory.lookup]
  | cons cell rest ih =>
    obtain ⟨c, w⟩ := cell
    by_cases hba : b = a
    · subst hba
      by_cases h1 : b < c
      · simp [Memory.put, Memory.lookup, h1]
      · by_cases h2 : b = c
        · simp [Memory.put, Memory.lookup, h2]
        · simp [Memory.put, Memory.lookup, h1, h2, ih]
    · by_cases h1 : a < c
      · simp [Memory.put, Memory.lookup, h1, hba]
      · by_cases h2 : a = c
        · subst h2
          simp [Memory.put, Memory.lookup, hba]
        · by_cases h3 : b = c
          · simp [Memory.put, Memory.lookup, h1, h2, h3]
            intro h; omega
          · simp [Memory.put, Memory.lookup, h1, h2, h3, ih, hba]

/-- A bound from below on every address is kept by a write at or above it. -/
theorem Memory.all_gt_put (m : Memory) (a x : Nat) (v : Byte) (hx : x < a)
    (h : m.all (fun cell => decide (x < cell.1)) = true) :
    (m.put a v).all (fun cell => decide (x < cell.1)) = true := by
  induction m with
  | nil => simpa [Memory.put] using hx
  | cons cell rest ih =>
    obtain ⟨c, w⟩ := cell
    simp only [List.all_cons, Bool.and_eq_true, decide_eq_true_eq] at h
    simp only [Memory.put]
    split
    · simp only [List.all_cons, Bool.and_eq_true, decide_eq_true_eq]
      exact ⟨hx, h.1, h.2⟩
    · split
      · simp only [List.all_cons, Bool.and_eq_true, decide_eq_true_eq]
        exact ⟨hx, h.2⟩
      · simp only [List.all_cons, Bool.and_eq_true, decide_eq_true_eq]
        exact ⟨h.1, ih h.2⟩

/-- Every write keeps the canonical form. -/
theorem Memory.put_wf (m : Memory) (a : Nat) (v : Byte) (h : m.wf = true) : (m.put a v).wf = true := by
  induction m with
  | nil => simp [Memory.put, Memory.wf]
  | cons cell rest ih =>
    obtain ⟨c, w⟩ := cell
    simp only [Memory.wf, Bool.and_eq_true] at h
    simp only [Memory.put]
    split
    · rename_i hlt
      simp only [Memory.wf, Bool.and_eq_true, List.all_cons, decide_eq_true_eq]
      refine ⟨⟨hlt, ?_⟩, h.1, h.2⟩
      refine List.all_eq_true.2 fun cell hc => ?_
      have := List.all_eq_true.1 h.1 cell hc
      simp only [decide_eq_true_eq] at this ⊢
      omega
    · split
      · rename_i _ heq
        subst heq
        simp only [Memory.wf, Bool.and_eq_true]
        exact h
      · rename_i hlt hne
        simp only [Memory.wf, Bool.and_eq_true]
        exact ⟨Memory.all_gt_put rest a c v (by omega) h.1, ih h.2⟩

theorem Memory.put_below (m : Memory) (bound a : Nat) (v : Byte) (ha : a < bound) (h : m.below bound = true) :
    (m.put a v).below bound = true := by
  induction m with
  | nil => simpa [Memory.put, Memory.below] using ha
  | cons cell rest ih =>
    obtain ⟨c, w⟩ := cell
    simp only [Memory.below, List.all_cons, Bool.and_eq_true, decide_eq_true_eq] at h
    simp only [Memory.put]
    split
    · simp only [Memory.below, List.all_cons, Bool.and_eq_true, decide_eq_true_eq]
      exact ⟨ha, h.1, h.2⟩
    · split
      · simp only [Memory.below, List.all_cons, Bool.and_eq_true, decide_eq_true_eq]
        exact ⟨ha, h.2⟩
      · simp only [Memory.below, List.all_cons, Bool.and_eq_true, decide_eq_true_eq]
        exact ⟨h.1, ih h.2⟩

theorem Memory.ofBytes_all_ge (bytes : List Byte) (a x : Nat) (hx : x < a) :
    (Memory.ofBytes a bytes).all (fun cell => decide (x < cell.1)) = true := by
  induction bytes generalizing a with
  | nil => rfl
  | cons b bs ih => simpa [Memory.ofBytes, hx] using ih (a + 1) (by omega)

/-- A placed list of bytes is in canonical form. -/
theorem Memory.ofBytes_wf (bytes : List Byte) (a : Nat) : (Memory.ofBytes a bytes).wf = true := by
  induction bytes generalizing a with
  | nil => rfl
  | cons b bs ih =>
    simp only [Memory.ofBytes, Memory.wf, Bool.and_eq_true]
    exact ⟨Memory.ofBytes_all_ge bs (a + 1) a (by omega), ih (a + 1)⟩

/-- Offset `j` of a placed list holds its `j`-th byte. -/
theorem Memory.lookup_ofBytes (bytes : List Byte) (a x : Nat) :
    (Memory.ofBytes a bytes).lookup x = if x < a then none else bytes[x - a]? := by
  induction bytes generalizing a with
  | nil => simp [Memory.ofBytes, Memory.lookup]
  | cons b bs ih =>
    simp only [Memory.ofBytes, Memory.lookup, ih]
    by_cases h : x = a
    · simp [h]
    · by_cases h2 : x < a
      · simp [h, h2, Nat.lt_succ_of_lt h2]
      · have h3 : x - a = (x - (a + 1)) + 1 := by omega
        simp [h, h2, show ¬ x < a + 1 by omega, h3]

/-! ## Working Buffer words -/

theorem wbByteOf_put (gen : Nat) (m : Memory) (a b : Nat) (v : Byte) :
    wbByteOf gen (m.put a v) b = if b = a then v else wbByteOf gen m b := by
  simp only [wbByteOf, Memory.lookup_put]
  split <;> rfl

/-- Everything a word write does, byte by byte. -/
theorem wbByteOf_putWbWord (gen : Nat) (m : Memory) (i a : Nat) (v : Word) :
    wbByteOf gen (putWbWord m i v) a = if a / 4 = i then v.extractLsb' (8 * (a % 4)) 8 else wbByteOf gen m a := by
  simp only [putWbWord, wbByteOf_put]
  by_cases h : a / 4 = i
  · have h4 : a % 4 < 4 := Nat.mod_lt _ (by omega)
    have ha : a = 4 * i + a % 4 := by omega
    rw [if_pos h]
    interval_cases a % 4 <;> simp [ha]
  · rw [if_neg h, if_neg (by omega), if_neg (by omega), if_neg (by omega), if_neg (by omega)]

theorem wbWordOf_putWbWord_self (gen : Nat) (m : Memory) (i : Nat) (v : Word) :
    wbWordOf gen (putWbWord m i v) i = v := by
  simp only [wbWordOf, wbByteOf_putWbWord]
  rw [if_pos (by omega), if_pos (by omega), if_pos (by omega), if_pos (by omega)]
  rw [show (4 * i + 3) % 4 = 3 by omega, show (4 * i + 2) % 4 = 2 by omega, show (4 * i + 1) % 4 = 1 by omega,
    show 4 * i % 4 = 0 by omega]
  ext j hj
  simp
  grind

theorem wbWordOf_putWbWord_ne (gen : Nat) (m : Memory) (i j : Nat) (v : Word) (h : j ≠ i) :
    wbWordOf gen (putWbWord m i v) j = wbWordOf gen m j := by
  simp only [wbWordOf, wbByteOf_putWbWord]
  rw [if_neg (by omega), if_neg (by omega), if_neg (by omega), if_neg (by omega)]

theorem putWbWord_wf (m : Memory) (i : Nat) (v : Word) (h : m.wf = true) : (putWbWord m i v).wf = true :=
  Memory.put_wf _ _ _ (Memory.put_wf _ _ _ (Memory.put_wf _ _ _ (Memory.put_wf _ _ _ h)))

theorem putWbWord_below (m : Memory) (bound i : Nat) (v : Word) (hi : 4 * i + 4 ≤ bound) (h : m.below bound = true) :
    (putWbWord m i v).below bound = true :=
  Memory.put_below _ _ _ _ (by omega) (Memory.put_below _ _ _ _ (by omega)
    (Memory.put_below _ _ _ _ (by omega) (Memory.put_below _ _ _ _ (by omega) h)))

/-! ## The zero-fill of INIT.D -/

/-- Everything the zero-fill does, byte by byte. -/
theorem wbByteOf_zeroFill (gen n : Nat) (m : Memory) (a : Nat) :
    wbByteOf gen (zeroFill n m) a = if a / 4 < n then 0#8 else wbByteOf gen m a := by
  induction n with
  | zero => simp [zeroFill]
  | succ n ih =>
    simp only [zeroFill, wbByteOf_putWbWord, ih]
    by_cases h1 : a / 4 = n
    · simp [h1]
    · by_cases h2 : a / 4 < n
      · simp [h1, h2, Nat.lt_succ_of_lt h2]
      · simp [h1, h2, show ¬ a / 4 < n + 1 by omega]

theorem wbWordOf_zeroFill (gen n : Nat) (m : Memory) (i : Nat) :
    wbWordOf gen (zeroFill n m) i = if i < n then 0#32 else wbWordOf gen m i := by
  simp only [wbWordOf, wbByteOf_zeroFill, show (4 * i + 3) / 4 = i by omega, show (4 * i + 2) / 4 = i by omega,
    show (4 * i + 1) / 4 = i by omega, show 4 * i / 4 = i by omega]
  split <;> rfl

theorem zeroFill_wf (n : Nat) (m : Memory) (h : m.wf = true) : (zeroFill n m).wf = true := by
  induction n with
  | zero => exact h
  | succ n ih => exact putWbWord_wf _ _ _ ih

theorem zeroFill_below (bound n : Nat) (m : Memory) (hn : 4 * n ≤ bound) (h : m.below bound = true) :
    (zeroFill n m).below bound = true := by
  induction n with
  | zero => exact h
  | succ n ih => exact putWbWord_below _ _ _ _ (by omega) (ih (by omega))

/-! ## FOLD's loop -/

/-- FOLD's loop leaves every byte at or past the words it has reached. -/
theorem wbByteOf_foldLanes (gen n count : Nat) (m : Memory) (a : Nat) (ha : count ≤ a / 4) :
    wbByteOf gen (foldLanes gen n count m) a = wbByteOf gen m a := by
  induction count with
  | zero => rfl
  | succ i ih =>
    simp only [foldLanes, wbByteOf_putWbWord]
    rw [if_neg (by omega)]
    exact ih (by omega)

theorem wbWordOf_foldLanes_ge (gen n count : Nat) (m : Memory) (i : Nat) (hi : count ≤ i) :
    wbWordOf gen (foldLanes gen n count m) i = wbWordOf gen m i := by
  simp only [wbWordOf]
  rw [wbByteOf_foldLanes _ _ _ _ _ (by omega), wbByteOf_foldLanes _ _ _ _ _ (by omega),
    wbByteOf_foldLanes _ _ _ _ _ (by omega), wbByteOf_foldLanes _ _ _ _ _ (by omega)]

/-- FOLD's loop puts lane 0 xor lane 1 into every word it has reached. -/
theorem wbWordOf_foldLanes_lt (gen n count : Nat) (m : Memory) (i : Nat) (hc : count ≤ n) (hi : i < count) :
    wbWordOf gen (foldLanes gen n count m) i = wbWordOf gen m i ^^^ wbWordOf gen m (n + i) := by
  induction count with
  | zero => omega
  | succ j ih =>
    simp only [foldLanes]
    by_cases h : i = j
    · subst h
      rw [wbWordOf_putWbWord_self, wbWordOf_foldLanes_ge _ _ _ _ _ (le_refl _),
        wbWordOf_foldLanes_ge _ _ _ _ _ (by omega)]
    · rw [wbWordOf_putWbWord_ne _ _ _ _ _ h]
      exact ih (by omega) (by omega)

theorem foldLanes_wf (gen n count : Nat) (m : Memory) (h : m.wf = true) : (foldLanes gen n count m).wf = true := by
  induction count with
  | zero => exact h
  | succ i ih => exact putWbWord_wf _ _ _ ih

theorem foldLanes_below (gen bound n count : Nat) (m : Memory) (hc : 4 * count ≤ bound) (h : m.below bound = true) :
    (foldLanes gen n count m).below bound = true := by
  induction count with
  | zero => exact h
  | succ i ih => exact putWbWord_below _ _ _ _ (by omega) (ih (by omega))

end Sys2Proof.Machine
end

