-- ==== Sys2Proof/Laws/State.lean ====
section
/-! SUPPORT. One lemma per field of the state and named update: what it writes, and that it leaves the rest. -/

namespace Sys2Proof.Machine

/-! ## `retire`: the transaction on the port is over -/

@[simp] theorem State.retire_seed (s : State) : s.retire.seed = s.seed := rfl
@[simp] theorem State.retire_lcg (s : State) : s.retire.lcg = s.lcg := rfl
@[simp] theorem State.retire_phase (s : State) : s.retire.phase = s.phase := rfl
@[simp] theorem State.retire_k (s : State) : s.retire.k = s.k := rfl
@[simp] theorem State.retire_c (s : State) : s.retire.c = s.c := rfl
@[simp] theorem State.retire_mode (s : State) : s.retire.mode = s.mode := rfl
@[simp] theorem State.retire_err (s : State) : s.retire.err = s.err := rfl
@[simp] theorem State.retire_errinfo (s : State) : s.retire.errinfo = s.errinfo := rfl
@[simp] theorem State.retire_hashlen (s : State) : s.retire.hashlen = s.hashlen := rfl
@[simp] theorem State.retire_msglen (s : State) : s.retire.msglen = s.msglen := rfl
@[simp] theorem State.retire_entropyLo (s : State) : s.retire.entropyLo = s.entropyLo := rfl
@[simp] theorem State.retire_entropyHi (s : State) : s.retire.entropyHi = s.entropyHi := rfl
@[simp] theorem State.retire_iv0 (s : State) : s.retire.iv0 = s.iv0 := rfl
@[simp] theorem State.retire_iv1 (s : State) : s.retire.iv1 = s.iv1 := rfl
@[simp] theorem State.retire_iv2 (s : State) : s.retire.iv2 = s.iv2 := rfl
@[simp] theorem State.retire_iv3 (s : State) : s.retire.iv3 = s.iv3 := rfl
@[simp] theorem State.retire_wb (s : State) : s.retire.wb = s.wb := rfl
@[simp] theorem State.retire_hpos (s : State) : s.retire.hpos = s.hpos := rfl
@[simp] theorem State.retire_lb (s : State) : s.retire.lb = s.lb := rfl
@[simp] theorem State.retire_msg (s : State) : s.retire.msg = s.msg := rfl
@[simp] theorem State.retire_msgGen (s : State) : s.retire.msgGen = s.msgGen := rfl
@[simp] theorem State.retire_wbGen (s : State) : s.retire.wbGen = s.wbGen := rfl
@[simp] theorem State.retire_port (s : State) : s.retire.port = s.port.tail := rfl
@[simp] theorem State.retire_hrdata (s : State) : s.retire.hrdata = s.hrdata := rfl
@[simp] theorem State.retire_turns (s : State) : s.retire.turns = s.turns := rfl

/-! ## `answer`: a read's answer -/

@[simp] theorem State.answer_seed (s : State) (v : Word) : (s.answer v).seed = s.seed := rfl
@[simp] theorem State.answer_lcg (s : State) (v : Word) : (s.answer v).lcg = s.lcg := rfl
@[simp] theorem State.answer_phase (s : State) (v : Word) : (s.answer v).phase = s.phase := rfl
@[simp] theorem State.answer_k (s : State) (v : Word) : (s.answer v).k = s.k := rfl
@[simp] theorem State.answer_c (s : State) (v : Word) : (s.answer v).c = s.c := rfl
@[simp] theorem State.answer_mode (s : State) (v : Word) : (s.answer v).mode = s.mode := rfl
@[simp] theorem State.answer_err (s : State) (v : Word) : (s.answer v).err = s.err := rfl
@[simp] theorem State.answer_errinfo (s : State) (v : Word) : (s.answer v).errinfo = s.errinfo := rfl
@[simp] theorem State.answer_hashlen (s : State) (v : Word) : (s.answer v).hashlen = s.hashlen := rfl
@[simp] theorem State.answer_msglen (s : State) (v : Word) : (s.answer v).msglen = s.msglen := rfl
@[simp] theorem State.answer_entropyLo (s : State) (v : Word) : (s.answer v).entropyLo = s.entropyLo := rfl
@[simp] theorem State.answer_entropyHi (s : State) (v : Word) : (s.answer v).entropyHi = s.entropyHi := rfl
@[simp] theorem State.answer_iv0 (s : State) (v : Word) : (s.answer v).iv0 = s.iv0 := rfl
@[simp] theorem State.answer_iv1 (s : State) (v : Word) : (s.answer v).iv1 = s.iv1 := rfl
@[simp] theorem State.answer_iv2 (s : State) (v : Word) : (s.answer v).iv2 = s.iv2 := rfl
@[simp] theorem State.answer_iv3 (s : State) (v : Word) : (s.answer v).iv3 = s.iv3 := rfl
@[simp] theorem State.answer_wb (s : State) (v : Word) : (s.answer v).wb = s.wb := rfl
@[simp] theorem State.answer_hpos (s : State) (v : Word) : (s.answer v).hpos = s.hpos := rfl
@[simp] theorem State.answer_lb (s : State) (v : Word) : (s.answer v).lb = s.lb := rfl
@[simp] theorem State.answer_msg (s : State) (v : Word) : (s.answer v).msg = s.msg := rfl
@[simp] theorem State.answer_msgGen (s : State) (v : Word) : (s.answer v).msgGen = s.msgGen := rfl
@[simp] theorem State.answer_wbGen (s : State) (v : Word) : (s.answer v).wbGen = s.wbGen := rfl
@[simp] theorem State.answer_port (s : State) (v : Word) : (s.answer v).port = s.port := rfl
@[simp] theorem State.answer_hrdata (s : State) (v : Word) : (s.answer v).hrdata = v := rfl
@[simp] theorem State.answer_turns (s : State) (v : Word) : (s.answer v).turns = s.turns := rfl

/-! ## `clearError`: the return from an error -/

@[simp] theorem State.clearError_seed (s : State) : s.clearError.seed = s.seed := rfl
@[simp] theorem State.clearError_lcg (s : State) : s.clearError.lcg = s.lcg := rfl
@[simp] theorem State.clearError_phase (s : State) : s.clearError.phase = s.phase := rfl
@[simp] theorem State.clearError_k (s : State) : s.clearError.k = s.k := rfl
@[simp] theorem State.clearError_c (s : State) : s.clearError.c = s.c := rfl
@[simp] theorem State.clearError_mode (s : State) : s.clearError.mode = s.mode := rfl
@[simp] theorem State.clearError_err (s : State) : s.clearError.err = 0#4 := rfl
@[simp] theorem State.clearError_errinfo (s : State) : s.clearError.errinfo = 0#32 := rfl
@[simp] theorem State.clearError_hashlen (s : State) : s.clearError.hashlen = s.hashlen := rfl
@[simp] theorem State.clearError_msglen (s : State) : s.clearError.msglen = s.msglen := rfl
@[simp] theorem State.clearError_entropyLo (s : State) : s.clearError.entropyLo = s.entropyLo := rfl
@[simp] theorem State.clearError_entropyHi (s : State) : s.clearError.entropyHi = s.entropyHi := rfl
@[simp] theorem State.clearError_iv0 (s : State) : s.clearError.iv0 = s.iv0 := rfl
@[simp] theorem State.clearError_iv1 (s : State) : s.clearError.iv1 = s.iv1 := rfl
@[simp] theorem State.clearError_iv2 (s : State) : s.clearError.iv2 = s.iv2 := rfl
@[simp] theorem State.clearError_iv3 (s : State) : s.clearError.iv3 = s.iv3 := rfl
@[simp] theorem State.clearError_wb (s : State) : s.clearError.wb = s.wb := rfl
@[simp] theorem State.clearError_hpos (s : State) : s.clearError.hpos = s.hpos := rfl
@[simp] theorem State.clearError_lb (s : State) : s.clearError.lb = s.lb := rfl
@[simp] theorem State.clearError_msg (s : State) : s.clearError.msg = s.msg := rfl
@[simp] theorem State.clearError_msgGen (s : State) : s.clearError.msgGen = s.msgGen := rfl
@[simp] theorem State.clearError_wbGen (s : State) : s.clearError.wbGen = s.wbGen := rfl
@[simp] theorem State.clearError_port (s : State) : s.clearError.port = s.port := rfl
@[simp] theorem State.clearError_hrdata (s : State) : s.clearError.hrdata = s.hrdata := rfl
@[simp] theorem State.clearError_turns (s : State) : s.clearError.turns = s.turns := rfl

/-! ## `raiseError`: error entry -/

@[simp] theorem State.raiseError_seed (s : State) (e : ErrCode) (info : Word) : (s.raiseError e info).seed = s.seed := by unfold State.raiseError; split <;> rfl
@[simp] theorem State.raiseError_lcg (s : State) (e : ErrCode) (info : Word) : (s.raiseError e info).lcg = s.lcg := by unfold State.raiseError; split <;> rfl
@[simp] theorem State.raiseError_phase (s : State) (e : ErrCode) (info : Word) : (s.raiseError e info).phase = s.phase := by unfold State.raiseError; split <;> rfl
@[simp] theorem State.raiseError_k (s : State) (e : ErrCode) (info : Word) : (s.raiseError e info).k = s.k := by unfold State.raiseError; split <;> rfl
@[simp] theorem State.raiseError_c (s : State) (e : ErrCode) (info : Word) : (s.raiseError e info).c = s.c := by unfold State.raiseError; split <;> rfl
@[simp] theorem State.raiseError_mode (s : State) (e : ErrCode) (info : Word) : (s.raiseError e info).mode = s.mode := by unfold State.raiseError; split <;> rfl
@[simp] theorem State.raiseError_err (s : State) (e : ErrCode) (info : Word) : (s.raiseError e info).err = if s.err = 0#4 then e.bits else s.err := by unfold State.raiseError; split <;> rfl
@[simp] theorem State.raiseError_errinfo (s : State) (e : ErrCode) (info : Word) : (s.raiseError e info).errinfo = if s.err = 0#4 then info else s.errinfo := by unfold State.raiseError; split <;> rfl
@[simp] theorem State.raiseError_hashlen (s : State) (e : ErrCode) (info : Word) : (s.raiseError e info).hashlen = s.hashlen := by unfold State.raiseError; split <;> rfl
@[simp] theorem State.raiseError_msglen (s : State) (e : ErrCode) (info : Word) : (s.raiseError e info).msglen = s.msglen := by unfold State.raiseError; split <;> rfl
@[simp] theorem State.raiseError_entropyLo (s : State) (e : ErrCode) (info : Word) : (s.raiseError e info).entropyLo = s.entropyLo := by unfold State.raiseError; split <;> rfl
@[simp] theorem State.raiseError_entropyHi (s : State) (e : ErrCode) (info : Word) : (s.raiseError e info).entropyHi = s.entropyHi := by unfold State.raiseError; split <;> rfl
@[simp] theorem State.raiseError_iv0 (s : State) (e : ErrCode) (info : Word) : (s.raiseError e info).iv0 = s.iv0 := by unfold State.raiseError; split <;> rfl
@[simp] theorem State.raiseError_iv1 (s : State) (e : ErrCode) (info : Word) : (s.raiseError e info).iv1 = s.iv1 := by unfold State.raiseError; split <;> rfl
@[simp] theorem State.raiseError_iv2 (s : State) (e : ErrCode) (info : Word) : (s.raiseError e info).iv2 = s.iv2 := by unfold State.raiseError; split <;> rfl
@[simp] theorem State.raiseError_iv3 (s : State) (e : ErrCode) (info : Word) : (s.raiseError e info).iv3 = s.iv3 := by unfold State.raiseError; split <;> rfl
@[simp] theorem State.raiseError_wb (s : State) (e : ErrCode) (info : Word) : (s.raiseError e info).wb = s.wb := by unfold State.raiseError; split <;> rfl
@[simp] theorem State.raiseError_hpos (s : State) (e : ErrCode) (info : Word) : (s.raiseError e info).hpos = s.hpos := by unfold State.raiseError; split <;> rfl
@[simp] theorem State.raiseError_lb (s : State) (e : ErrCode) (info : Word) : (s.raiseError e info).lb = s.lb := by unfold State.raiseError; split <;> rfl
@[simp] theorem State.raiseError_msg (s : State) (e : ErrCode) (info : Word) : (s.raiseError e info).msg = s.msg := by unfold State.raiseError; split <;> rfl
@[simp] theorem State.raiseError_msgGen (s : State) (e : ErrCode) (info : Word) : (s.raiseError e info).msgGen = s.msgGen := by unfold State.raiseError; split <;> rfl
@[simp] theorem State.raiseError_wbGen (s : State) (e : ErrCode) (info : Word) : (s.raiseError e info).wbGen = s.wbGen := by unfold State.raiseError; split <;> rfl
@[simp] theorem State.raiseError_port (s : State) (e : ErrCode) (info : Word) : (s.raiseError e info).port = s.port := by unfold State.raiseError; split <;> rfl
@[simp] theorem State.raiseError_hrdata (s : State) (e : ErrCode) (info : Word) : (s.raiseError e info).hrdata = s.hrdata := by unfold State.raiseError; split <;> rfl
@[simp] theorem State.raiseError_turns (s : State) (e : ErrCode) (info : Word) : (s.raiseError e info).turns = s.turns := by unfold State.raiseError; split <;> rfl

/-! ## `beginLoop`: what both initialisations write -/

@[simp] theorem State.beginLoop_seed (s : State) (x y : DWord) : (s.beginLoop x y).seed = x := rfl
@[simp] theorem State.beginLoop_lcg (s : State) (x y : DWord) : (s.beginLoop x y).lcg = y := rfl
@[simp] theorem State.beginLoop_phase (s : State) (x y : DWord) : (s.beginLoop x y).phase = .loop := rfl
@[simp] theorem State.beginLoop_k (s : State) (x y : DWord) : (s.beginLoop x y).k = 0#64 := rfl
@[simp] theorem State.beginLoop_c (s : State) (x y : DWord) : (s.beginLoop x y).c = BitVec.ofNat 64 (padLen s.msglen.toNat s.hashlen.toNat) := rfl
@[simp] theorem State.beginLoop_mode (s : State) (x y : DWord) : (s.beginLoop x y).mode = s.mode := rfl
@[simp] theorem State.beginLoop_err (s : State) (x y : DWord) : (s.beginLoop x y).err = s.err := rfl
@[simp] theorem State.beginLoop_errinfo (s : State) (x y : DWord) : (s.beginLoop x y).errinfo = s.errinfo := rfl
@[simp] theorem State.beginLoop_hashlen (s : State) (x y : DWord) : (s.beginLoop x y).hashlen = s.hashlen := rfl
@[simp] theorem State.beginLoop_msglen (s : State) (x y : DWord) : (s.beginLoop x y).msglen = s.msglen := rfl
@[simp] theorem State.beginLoop_entropyLo (s : State) (x y : DWord) : (s.beginLoop x y).entropyLo = s.entropyLo := rfl
@[simp] theorem State.beginLoop_entropyHi (s : State) (x y : DWord) : (s.beginLoop x y).entropyHi = s.entropyHi := rfl
@[simp] theorem State.beginLoop_iv0 (s : State) (x y : DWord) : (s.beginLoop x y).iv0 = s.iv0 := rfl
@[simp] theorem State.beginLoop_iv1 (s : State) (x y : DWord) : (s.beginLoop x y).iv1 = s.iv1 := rfl
@[simp] theorem State.beginLoop_iv2 (s : State) (x y : DWord) : (s.beginLoop x y).iv2 = s.iv2 := rfl
@[simp] theorem State.beginLoop_iv3 (s : State) (x y : DWord) : (s.beginLoop x y).iv3 = s.iv3 := rfl
@[simp] theorem State.beginLoop_wb (s : State) (x y : DWord) : (s.beginLoop x y).wb = s.wb := rfl
@[simp] theorem State.beginLoop_hpos (s : State) (x y : DWord) : (s.beginLoop x y).hpos = 0#16 := rfl
@[simp] theorem State.beginLoop_lb (s : State) (x y : DWord) : (s.beginLoop x y).lb = s.padByte := rfl
@[simp] theorem State.beginLoop_msg (s : State) (x y : DWord) : (s.beginLoop x y).msg = s.msg := rfl
@[simp] theorem State.beginLoop_msgGen (s : State) (x y : DWord) : (s.beginLoop x y).msgGen = s.msgGen := rfl
@[simp] theorem State.beginLoop_wbGen (s : State) (x y : DWord) : (s.beginLoop x y).wbGen = s.wbGen := rfl
@[simp] theorem State.beginLoop_port (s : State) (x y : DWord) : (s.beginLoop x y).port = s.port := rfl
@[simp] theorem State.beginLoop_hrdata (s : State) (x y : DWord) : (s.beginLoop x y).hrdata = s.hrdata := rfl
@[simp] theorem State.beginLoop_turns (s : State) (x y : DWord) : (s.beginLoop x y).turns = s.turns := rfl

/-! ## `updateStep`: the update of STEP -/

@[simp] theorem State.updateStep_seed (s : State) : s.updateStep.seed = seedProduct s.seed s.lcg ^^^ (mixedWord (seedProduct s.seed s.lcg) (s.wbWord (s.hpos.toNat / 4))).setWidth 64 ^^^
      (messageMix s.lcg (s.msgWord s.k.toNat)).setWidth 64 := rfl
@[simp] theorem State.updateStep_lcg (s : State) : s.updateStep.lcg = s.lcg + seedProduct s.seed s.lcg := rfl
@[simp] theorem State.updateStep_phase (s : State) : s.updateStep.phase = s.nextPhase := rfl
@[simp] theorem State.updateStep_k (s : State) : s.updateStep.k = s.k + 4#64 := rfl
@[simp] theorem State.updateStep_c (s : State) : s.updateStep.c = s.c := rfl
@[simp] theorem State.updateStep_mode (s : State) : s.updateStep.mode = s.mode := rfl
@[simp] theorem State.updateStep_err (s : State) : s.updateStep.err = s.err := rfl
@[simp] theorem State.updateStep_errinfo (s : State) : s.updateStep.errinfo = s.errinfo := rfl
@[simp] theorem State.updateStep_hashlen (s : State) : s.updateStep.hashlen = s.hashlen := rfl
@[simp] theorem State.updateStep_msglen (s : State) : s.updateStep.msglen = s.msglen := rfl
@[simp] theorem State.updateStep_entropyLo (s : State) : s.updateStep.entropyLo = s.entropyLo := rfl
@[simp] theorem State.updateStep_entropyHi (s : State) : s.updateStep.entropyHi = s.entropyHi := rfl
@[simp] theorem State.updateStep_iv0 (s : State) : s.updateStep.iv0 = s.iv0 := rfl
@[simp] theorem State.updateStep_iv1 (s : State) : s.updateStep.iv1 = s.iv1 := rfl
@[simp] theorem State.updateStep_iv2 (s : State) : s.updateStep.iv2 = s.iv2 := rfl
@[simp] theorem State.updateStep_iv3 (s : State) : s.updateStep.iv3 = s.iv3 := rfl
@[simp] theorem State.updateStep_wb (s : State) : s.updateStep.wb = putWbWord s.wb (s.hpos.toNat / 4) (mixedWord (seedProduct s.seed s.lcg) (s.wbWord (s.hpos.toNat / 4))) := rfl
@[simp] theorem State.updateStep_hpos (s : State) : s.updateStep.hpos = s.nextHpos := rfl
@[simp] theorem State.updateStep_lb (s : State) : s.updateStep.lb = s.lb := rfl
@[simp] theorem State.updateStep_msg (s : State) : s.updateStep.msg = s.msg := rfl
@[simp] theorem State.updateStep_msgGen (s : State) : s.updateStep.msgGen = s.msgGen := rfl
@[simp] theorem State.updateStep_wbGen (s : State) : s.updateStep.wbGen = s.wbGen := rfl
@[simp] theorem State.updateStep_port (s : State) : s.updateStep.port = s.port := rfl
@[simp] theorem State.updateStep_hrdata (s : State) : s.updateStep.hrdata = s.hrdata := rfl
@[simp] theorem State.updateStep_turns (s : State) : s.updateStep.turns = s.turns := rfl

/-! ## `startJob`: START where it is not held -/

@[simp] theorem State.startJob_seed (s : State) (m : Mode) : (s.startJob m).seed = s.seed := by unfold State.startJob; split <;> (try split) <;> simp
@[simp] theorem State.startJob_lcg (s : State) (m : Mode) : (s.startJob m).lcg = s.lcg := by unfold State.startJob; split <;> (try split) <;> simp
@[simp] theorem State.startJob_k (s : State) (m : Mode) : (s.startJob m).k = s.k := by unfold State.startJob; split <;> (try split) <;> simp
@[simp] theorem State.startJob_c (s : State) (m : Mode) : (s.startJob m).c = s.c := by unfold State.startJob; split <;> (try split) <;> simp
@[simp] theorem State.startJob_hashlen (s : State) (m : Mode) : (s.startJob m).hashlen = s.hashlen := by unfold State.startJob; split <;> (try split) <;> simp
@[simp] theorem State.startJob_msglen (s : State) (m : Mode) : (s.startJob m).msglen = s.msglen := by unfold State.startJob; split <;> (try split) <;> simp
@[simp] theorem State.startJob_entropyLo (s : State) (m : Mode) : (s.startJob m).entropyLo = s.entropyLo := by unfold State.startJob; split <;> (try split) <;> simp
@[simp] theorem State.startJob_entropyHi (s : State) (m : Mode) : (s.startJob m).entropyHi = s.entropyHi := by unfold State.startJob; split <;> (try split) <;> simp
@[simp] theorem State.startJob_iv0 (s : State) (m : Mode) : (s.startJob m).iv0 = s.iv0 := by unfold State.startJob; split <;> (try split) <;> simp
@[simp] theorem State.startJob_iv1 (s : State) (m : Mode) : (s.startJob m).iv1 = s.iv1 := by unfold State.startJob; split <;> (try split) <;> simp
@[simp] theorem State.startJob_iv2 (s : State) (m : Mode) : (s.startJob m).iv2 = s.iv2 := by unfold State.startJob; split <;> (try split) <;> simp
@[simp] theorem State.startJob_iv3 (s : State) (m : Mode) : (s.startJob m).iv3 = s.iv3 := by unfold State.startJob; split <;> (try split) <;> simp
@[simp] theorem State.startJob_wb (s : State) (m : Mode) : (s.startJob m).wb = s.wb := by unfold State.startJob; split <;> (try split) <;> simp
@[simp] theorem State.startJob_hpos (s : State) (m : Mode) : (s.startJob m).hpos = s.hpos := by unfold State.startJob; split <;> (try split) <;> simp
@[simp] theorem State.startJob_lb (s : State) (m : Mode) : (s.startJob m).lb = s.lb := by unfold State.startJob; split <;> (try split) <;> simp
@[simp] theorem State.startJob_msg (s : State) (m : Mode) : (s.startJob m).msg = s.msg := by unfold State.startJob; split <;> (try split) <;> simp
@[simp] theorem State.startJob_msgGen (s : State) (m : Mode) : (s.startJob m).msgGen = s.msgGen := by unfold State.startJob; split <;> (try split) <;> simp
@[simp] theorem State.startJob_wbGen (s : State) (m : Mode) : (s.startJob m).wbGen = s.wbGen := by unfold State.startJob; split <;> (try split) <;> simp
@[simp] theorem State.startJob_port (s : State) (m : Mode) : (s.startJob m).port = s.port := by unfold State.startJob; split <;> (try split) <;> simp
@[simp] theorem State.startJob_hrdata (s : State) (m : Mode) : (s.startJob m).hrdata = s.hrdata := by unfold State.startJob; split <;> (try split) <;> simp
@[simp] theorem State.startJob_turns (s : State) (m : Mode) : (s.startJob m).turns = s.turns := by unfold State.startJob; split <;> (try split) <;> simp

end Sys2Proof.Machine
end

