-- ==== Sys2Proof/Laws/Ops.lean ====
section
/-! SUPPORT. What each shared operation can do, said once: the hold, error entry, START, the address map, the padded length,
the choice of the next move. -/

namespace Sys2Proof.Machine

/-- A write is held with no effect, or performed and over. -/
theorem performWrite_next (s t : State) (effect : State → State) (h : s.performWrite effect = .next t) :
    (s.busy = true ∧ t = s) ∨ (s.busy = false ∧ t = (effect s).retire) := by
  unfold State.performWrite at h
  split at h <;> cases h
  · exact .inl ⟨by assumption, rfl⟩
  · exact .inr ⟨by simp_all, rfl⟩

theorem performWrite_free (s : State) (effect : State → State) (h : s.busy = false) :
    s.performWrite effect = .next (effect s).retire := by
  simp [State.performWrite, h]

theorem performWrite_held (s : State) (effect : State → State) (h : s.busy = true) :
    s.performWrite effect = .next s := by
  simp [State.performWrite, h]

/-- Error entry records the error, or keeps the first one. -/
theorem raiseError_cases (s : State) (e : ErrCode) (info : Word) :
    (s.err = 0#4 ∧ s.raiseError e info = { s with err := e.bits, errinfo := info }) ∨
    (s.err ≠ 0#4 ∧ s.raiseError e info = s) := by
  unfold State.raiseError
  split
  · exact .inl ⟨by assumption, rfl⟩
  · exact .inr ⟨by assumption, rfl⟩

/-- START, where it is not held, is ignored, begins a job, or raises `E_HASHLEN`. -/
theorem startJob_cases (s : State) (m : Mode) :
    (s.err ≠ 0#4 ∧ s.startJob m = s) ∨
    (s.err = 0#4 ∧ jobLength s.hashlen.toNat = true ∧ s.startJob m = { s with mode := m, phase := .init }) ∨
    (s.err = 0#4 ∧ jobLength s.hashlen.toNat = false ∧
      s.startJob m = { s with err := ErrCode.hashLen.bits, errinfo := s.hashlen }) := by
  unfold State.startJob
  split
  · exact .inl ⟨by assumption, rfl⟩
  · rename_i h
    simp only [ne_eq, Decidable.not_not] at h
    split
    · exact .inr (.inl ⟨h, by assumption, rfl⟩)
    · exact .inr (.inr ⟨h, by simp_all, by simp [State.raiseError, h]⟩)

/-- A window target is a word that exists. -/
theorem hostTarget_window (off : BitVec 16) (i : Nat) (h : hostTarget off = .window i) :
    4 * i + 4 ≤ Config.wbBytes ∧ off.toNat = 0x1000 + 4 * i := by
  have hb : Config.wbBytes % 4 = 0 := by unfold Config.wbBytes; omega
  unfold hostTarget at h
  have drop : ∀ {p : Prop} [Decidable p] {t e : HostTarget}, t ≠ .window i → (if p then t else e) = .window i →
      ¬ p ∧ e = .window i := by
    intro p _ t e ht hi
    by_cases hp : p
    · rw [if_pos hp] at hi
      exact absurd hi ht
    · rw [if_neg hp] at hi
      exact ⟨hp, hi⟩
  obtain ⟨h4, h⟩ := drop (by simp) h
  iterate 11 obtain ⟨-, h⟩ := drop (by simp) h
  by_cases hw : 0x1000 ≤ off.toNat ∧ off.toNat - 0x1000 < Config.wbBytes
  · rw [if_pos hw] at h
    cases h
    omega
  · rw [if_neg hw] at h
    cases h

/-- The window covers every word that exists. -/
theorem hostTarget_of_window (i : Nat) (h : 4 * i < Config.wbBytes) :
    hostTarget (BitVec.ofNat 16 (0x1000 + 4 * i)) = .window i := by
  have hb : Config.wbBytes ≤ 0xF000 := by unfold Config.wbBytes; omega
  have hn : (BitVec.ofNat 16 (0x1000 + 4 * i)).toNat = 0x1000 + 4 * i := by
    rw [BitVec.toNat_ofNat]
    exact Nat.mod_eq_of_lt (by omega)
  have hne : ∀ c : BitVec 16, c.toNat < 0x1000 → BitVec.ofNat 16 (0x1000 + 4 * i) ≠ c := by
    intro c hc e
    rw [← e, hn] at hc
    omega
  unfold hostTarget
  rw [hn, if_neg (by omega), if_neg (hne _ (by decide)), if_neg (hne _ (by decide)), if_neg (hne _ (by decide)),
    if_neg (hne _ (by decide)), if_neg (hne _ (by decide)), if_neg (hne _ (by decide)), if_neg (hne _ (by decide)),
    if_neg (hne _ (by decide)), if_neg (hne _ (by decide)), if_neg (hne _ (by decide)), if_neg (hne _ (by decide)),
    if_pos (by omega)]
  congr 1
  omega

theorem wbBytes_bounds : 8 ≤ Config.wbBytes ∧ Config.wbBytes ≤ 0xF000 ∧ Config.wbBytes % 8 = 0 := by
  unfold Config.wbBytes
  omega

/-! The registers' offsets (10_state.md R30). -/

theorem hostTarget_cmd : hostTarget 0x0000#16 = .cmd := by decide
theorem hostTarget_status : hostTarget 0x0004#16 = .status := by decide
theorem hostTarget_errinfo : hostTarget 0x0008#16 = .errinfo := by decide
theorem hostTarget_hashlen : hostTarget 0x0010#16 = .hashlen := by decide
theorem hostTarget_msglen : hostTarget 0x0014#16 = .msglen := by decide
theorem hostTarget_entropyLo : hostTarget 0x0018#16 = .entropyLo := by decide
theorem hostTarget_entropyHi : hostTarget 0x001C#16 = .entropyHi := by decide
theorem hostTarget_iv0 : hostTarget 0x0020#16 = .iv0 := by decide
theorem hostTarget_iv1 : hostTarget 0x0024#16 = .iv1 := by decide
theorem hostTarget_iv2 : hostTarget 0x0028#16 = .iv2 := by decide
theorem hostTarget_iv3 : hostTarget 0x002C#16 = .iv3 := by decide

/-- An offset that is misaligned, reserved or past the window reaches nothing. -/
theorem hostTarget_nothing (off : BitVec 16)
    (h : off.toNat % 4 ≠ 0 ∨ off = 0x000C#16 ∨ (0x0030 ≤ off.toNat ∧ off.toNat < 0x1000) ∨ 0x1000 + Config.wbBytes ≤ off.toNat) :
    hostTarget off = .nothing := by
  by_cases h4 : off.toNat % 4 ≠ 0
  · unfold hostTarget
    rw [if_pos h4]
  by_cases hc : off = 0x000C#16
  · subst hc
    decide
  have hb : 0x30 ≤ off.toNat := by
    have := wbBytes_bounds
    rcases h with h | h | h | h
    · exact absurd h h4
    · exact absurd h hc
    · exact h.1
    · omega
  have hne : ∀ c : BitVec 16, c.toNat < 0x30 → off ≠ c := by
    intro c hlt e
    rw [← e] at hlt
    omega
  have hw : ¬ (0x1000 ≤ off.toNat ∧ off.toNat - 0x1000 < Config.wbBytes) := by
    rcases h with h | h | h | h
    · exact absurd h h4
    · exact absurd h hc
    · omega
    · omega
  unfold hostTarget
  rw [if_neg h4, if_neg (hne _ (by decide)), if_neg (hne _ (by decide)), if_neg (hne _ (by decide)),
    if_neg (hne _ (by decide)), if_neg (hne _ (by decide)), if_neg (hne _ (by decide)), if_neg (hne _ (by decide)),
    if_neg (hne _ (by decide)), if_neg (hne _ (by decide)), if_neg (hne _ (by decide)), if_neg (hne _ (by decide)),
    if_neg hw]

/-- Everything the address map can answer, and for which offsets. -/
theorem hostTarget_cases (off : BitVec 16) :
    (off = 0x0000#16 ∧ hostTarget off = .cmd) ∨ (off = 0x0004#16 ∧ hostTarget off = .status) ∨
    (off = 0x0008#16 ∧ hostTarget off = .errinfo) ∨ (off = 0x0010#16 ∧ hostTarget off = .hashlen) ∨
    (off = 0x0014#16 ∧ hostTarget off = .msglen) ∨ (off = 0x0018#16 ∧ hostTarget off = .entropyLo) ∨
    (off = 0x001C#16 ∧ hostTarget off = .entropyHi) ∨ (off = 0x0020#16 ∧ hostTarget off = .iv0) ∨
    (off = 0x0024#16 ∧ hostTarget off = .iv1) ∨ (off = 0x0028#16 ∧ hostTarget off = .iv2) ∨
    (off = 0x002C#16 ∧ hostTarget off = .iv3) ∨
    (∃ i, 4 * i + 4 ≤ Config.wbBytes ∧ off.toNat = 0x1000 + 4 * i ∧ hostTarget off = .window i) ∨
    ((off.toNat % 4 ≠ 0 ∨ off = 0x000C#16 ∨ (0x0030 ≤ off.toNat ∧ off.toNat < 0x1000) ∨ 0x1000 + Config.wbBytes ≤ off.toNat) ∧
      hostTarget off = .nothing) := by
  by_cases h4 : off.toNat % 4 ≠ 0
  · exact .inr (.inr (.inr (.inr (.inr (.inr (.inr (.inr (.inr (.inr (.inr (.inr ⟨.inl h4, hostTarget_nothing off (.inl h4)⟩)))))))))))
  by_cases hw : 0x1000 ≤ off.toNat ∧ off.toNat - 0x1000 < Config.wbBytes
  · have hb := wbBytes_bounds
    have e : off = BitVec.ofNat 16 (0x1000 + 4 * ((off.toNat - 0x1000) / 4)) := by
      apply BitVec.eq_of_toNat_eq
      rw [BitVec.toNat_ofNat]
      omega
    have ht := hostTarget_of_window ((off.toNat - 0x1000) / 4) (by omega)
    rw [← e] at ht
    simp only [ht]
    exact .inr (.inr (.inr (.inr (.inr (.inr (.inr (.inr (.inr (.inr (.inr (.inl ⟨_, by omega, by omega, rfl⟩)))))))))))
  by_cases hr : off = 0x000C#16 ∨ 0x0030 ≤ off.toNat
  · have hn : off.toNat % 4 ≠ 0 ∨ off = 0x000C#16 ∨ (0x0030 ≤ off.toNat ∧ off.toNat < 0x1000) ∨
        0x1000 + Config.wbBytes ≤ off.toNat := by
      rcases hr with h | h
      · exact .inr (.inl h)
      · exact .inr (.inr (by omega))
    exact .inr (.inr (.inr (.inr (.inr (.inr (.inr (.inr (.inr (.inr (.inr (.inr ⟨hn, hostTarget_nothing off hn⟩)))))))))))
  · obtain ⟨hc, hlt⟩ := not_or.1 hr
    have hlt : off.toNat < 0x30 := by omega
    have key : ∀ n : Fin 48, n.val % 4 = 0 → n.val ≠ 12 → BitVec.ofNat 16 n.val = off →
        off ∈ [0x0000, 0x0004, 0x0008, 0x0010, 0x0014, 0x0018, 0x001C, 0x0020, 0x0024, 0x0028, 0x002C#16] := by
      intro n h1 h2 h3
      subst h3
      revert n
      decide
    have hm := key ⟨off.toNat, hlt⟩ (by simpa using h4) (fun h => hc (BitVec.eq_of_toNat_eq h)) (by simp)
    simp only [List.mem_cons, List.not_mem_nil, or_false] at hm
    rcases hm with rfl | rfl | rfl | rfl | rfl | rfl | rfl | rfl | rfl | rfl | rfl
    · exact .inl ⟨rfl, by decide⟩
    · exact .inr (.inl ⟨rfl, by decide⟩)
    · exact .inr (.inr (.inl ⟨rfl, by decide⟩))
    · exact .inr (.inr (.inr (.inl ⟨rfl, by decide⟩)))
    · exact .inr (.inr (.inr (.inr (.inl ⟨rfl, by decide⟩))))
    · exact .inr (.inr (.inr (.inr (.inr (.inl ⟨rfl, by decide⟩)))))
    · exact .inr (.inr (.inr (.inr (.inr (.inr (.inl ⟨rfl, by decide⟩))))))
    · exact .inr (.inr (.inr (.inr (.inr (.inr (.inr (.inl ⟨rfl, by decide⟩)))))))
    · exact .inr (.inr (.inr (.inr (.inr (.inr (.inr (.inr (.inl ⟨rfl, by decide⟩))))))))
    · exact .inr (.inr (.inr (.inr (.inr (.inr (.inr (.inr (.inr (.inl ⟨rfl, by decide⟩)))))))))
    · exact .inr (.inr (.inr (.inr (.inr (.inr (.inr (.inr (.inr (.inr (.inl ⟨rfl, by decide⟩))))))))))

/-- `RUP(x, m)` is a multiple of `m`, not below `x`, and less than `m` above it. -/
theorem rup_spec (x m : Nat) (hm : 0 < m) : rup x m % m = 0 ∧ x ≤ rup x m ∧ rup x m < x + m := by
  unfold rup
  have h1 := Nat.div_add_mod (x + m - 1) m
  have h2 := Nat.mod_lt (x + m - 1) hm
  have h3 : (x + m - 1) / m * m = m * ((x + m - 1) / m) := Nat.mul_comm _ _
  refine ⟨Nat.mul_mod_left _ _, by omega, by omega⟩

/-- What `digestLength` says. -/
theorem digestLength_iff (h : Nat) : digestLength h = true ↔ 4 ≤ h ∧ h % 4 = 0 := by
  simp [digestLength]

theorem jobLength_iff (h : Nat) : jobLength h = true ↔ (4 ≤ h ∧ h % 4 = 0) ∧ hlm h ≤ Config.wbBytes := by
  simp [jobLength, digestLength]

/-- `HLM` of a digest length is a positive multiple of 4, and one or two lanes. -/
theorem hlm_spec (h : Nat) (hd : digestLength h = true) :
    hlm h % 4 = 0 ∧ h ≤ hlm h ∧ 4 ≤ hlm h ∧ hlm h ≤ 2 * h ∧ (h < hlm h ↔ 4 < h) := by
  rw [digestLength_iff] at hd
  unfold hlm
  split <;> omega

/-- The padded length of a digest length: a multiple of `HLM` with room for the message and one lane. -/
theorem padLen_spec (l h : Nat) (hd : digestLength h = true) :
    padLen l h % hlm h = 0 ∧ padLen l h % 4 = 0 ∧ rup l 4 + h ≤ padLen l h ∧ padLen l h < rup l 4 + h + hlm h := by
  have hh := hlm_spec h hd
  have hr := rup_spec (rup l 4 + h) (hlm h) (by omega)
  have e : padLen l h = rup (rup l 4 + h) (hlm h) := by simp [padLen, hd]
  rw [e]
  refine ⟨hr.1, ?_, hr.2⟩
  have h4 : 4 ∣ hlm h := Nat.dvd_of_mod_eq_zero hh.1
  exact Nat.mod_eq_zero_of_dvd (h4.trans (Nat.dvd_of_mod_eq_zero hr.1))

/-- The padded length of an accepted job fits `C` with room to spare. -/
theorem padLen_lt (l h : Nat) (hl : l < 2 ^ 32) (hj : jobLength h = true) : padLen l h < 2 ^ 33 := by
  rw [jobLength_iff] at hj
  have hd : digestLength h = true := (digestLength_iff h).2 hj.1
  have h1 := padLen_spec l h hd
  have h2 := hlm_spec h hd
  have h3 := rup_spec l 4 (by omega)
  have h4 := wbBytes_bounds
  omega

/-- What the engine's selector picks, phase by phase. -/
theorem engineInstr_eq (s : State) : s.engineInstr =
    match s.phase with
    | .idle => none
    | .init => some (match s.mode with | .defaultMode => .initD | .resumeMode => .initR)
    | .loop => some (.step s.mode)
    | .fold => some (.fold s.mode)
    | .fin => some (.fin s.mode)
    | .done => none := by
  unfold State.engineInstr State.sel
  cases s.phase <;> cases s.mode <;> rfl

/-- The engine has a step exactly while `BUSY = 1`. -/
theorem engineInstr_isSome (s : State) : s.engineInstr.isSome = s.busy := by
  rw [engineInstr_eq]
  unfold State.busy
  cases s.phase <;> rfl

theorem hostInstr_nil (s : State) (h : s.port = []) : s.hostInstr = none := by
  simp [State.hostInstr, h]

theorem hostInstr_cons (s : State) (w : BusWord) (rest : List BusWord) (h : s.port = w :: rest) :
    s.hostInstr = some (decodeBus w) := by
  simp [State.hostInstr, h, decode, Except.toOption]

/-- The host presents nothing but HRD and HWR. -/
theorem hostInstr_bus (s : State) (i : Instr) (h : s.hostInstr = some i) :
    (∃ off, i = .hrd off) ∨ ∃ off data, i = .hwr off data := by
  cases hp : s.port with
  | nil => simp [hostInstr_nil s hp] at h
  | cons w rest =>
    rw [hostInstr_cons s w rest hp] at h
    cases h
    unfold decodeBus
    split
    · exact .inr ⟨_, _, rfl⟩
    · exact .inl ⟨_, rfl⟩

/-- A data word delivered to `CMD` is one of the four legal commands or raises `E_CMD`. -/
theorem execCommandWord_cases (data : Word) (s : State) :
    (decodeCommand data = .ok .nop ∧ execCommandWord data s = execNop s) ∨
    (∃ m, decodeCommand data = .ok (.start m) ∧ execCommandWord data s = execStart m s) ∨
    (decodeCommand data = .ok .clrerr ∧ execCommandWord data s = execClrerr s) ∨
    (∃ e, decodeCommand data = .error e ∧ execCommandWord data s = s.performWrite (State.raiseError .cmd data)) := by
  unfold execCommandWord
  by_cases hz : BitVec.extractLsb' 5 27 data ≠ 0#27
  · have hd : decodeCommand data = .error (.illegalCommand data) := by simp [decodeCommand, hz]
    rw [hd]
    exact .inr (.inr (.inr ⟨_, rfl, rfl⟩))
  · generalize hd : decodeCommand data = r
    unfold decodeCommand at hd
    rw [if_neg hz] at hd
    split at hd <;> subst hd
    · exact .inl ⟨rfl, rfl⟩
    · exact .inr (.inl ⟨_, rfl, rfl⟩)
    · exact .inr (.inr (.inl ⟨rfl, rfl⟩))
    · exact .inr (.inr (.inr ⟨_, rfl, rfl⟩))

end Sys2Proof.Machine
end

