-- ==== Sys2Proof/Laws/Exec.lean ====
section
/-! SUPPORT. Everything a next state of each operation can be, said once per operation. -/

namespace Sys2Proof.Machine

/-- The memories right after reset are in their canonical form. -/
theorem reset_memoryOk : State.reset.memoryOk := ⟨rfl, rfl, rfl⟩

theorem holdsRead_free (s : State) (off : BitVec 16) (h : s.busy = false ∨ off = 0x0004#16 ∨ off = 0x0008#16) :
    s.holdsRead off = false := by
  unfold State.holdsRead
  rcases h with h | h | h <;> simp [h]

theorem holdsRead_held (s : State) (off : BitVec 16) (hb : s.busy = true) (h4 : off ≠ 0x0004#16) (h8 : off ≠ 0x0008#16) :
    s.holdsRead off = true := by
  simp [State.holdsRead, hb, h4, h8]

/-- HRD is held, answers, or raises `E_ADDR` and answers 0. -/
theorem exec_hrd_cases (off : BitVec 16) (s t : State) (h : exec (.hrd off) s = .next t) :
    (s.holdsRead off = true ∧ t = s) ∨
    (∃ v, s.hostRead off = some v ∧ t = (s.answer v).retire) ∨
    (s.hostRead off = none ∧ t = ((s.raiseError .addr (addrInfo 0#1 off)).answer 0#32).retire) := by
  simp only [exec, execHrd] at h
  split at h
  · cases h
    exact .inl ⟨by assumption, rfl⟩
  · split at h <;> cases h
    · exact .inr (.inl ⟨_, by assumption, rfl⟩)
    · exact .inr (.inr ⟨by assumption, rfl⟩)

/-- HRD always answers a next state. -/
theorem exec_hrd_next (off : BitVec 16) (s : State) : ∃ t, exec (.hrd off) s = .next t := by
  simp only [exec, execHrd]
  split
  · exact ⟨_, rfl⟩
  · split <;> exact ⟨_, rfl⟩

/-- What a performed HWR does, by the target of its offset. -/
def hwrEffect (off : BitVec 16) (data : Word) (s : State) : State :=
  match hostTarget off with
  | .cmd =>
    match decodeCommand data with
    | .ok .nop => s
    | .ok (.start m) => s.startJob m
    | .ok .clrerr => s.clearError
    | _ => s.raiseError .cmd data
  | .status => s
  | .errinfo => s
  | .hashlen => { s with hashlen := data }
  | .msglen => { s with msglen := data }
  | .entropyLo => { s with entropyLo := data }
  | .entropyHi => { s with entropyHi := data }
  | .iv0 => { s with iv0 := data }
  | .iv1 => { s with iv1 := data }
  | .iv2 => { s with iv2 := data }
  | .iv3 => { s with iv3 := data }
  | .window i => { s with wb := putWbWord s.wb i data }
  | .nothing => s.raiseError .addr (addrInfo 1#1 off)

/-- HWR is held, or its effect is performed and the transaction is over. -/
theorem exec_hwr_eq (off : BitVec 16) (data : Word) (s : State) :
    exec (.hwr off data) s = if s.busy then .next s else .next (hwrEffect off data s).retire := by
  simp only [exec, execHwr, hwrEffect]
  generalize hostTarget off = target
  cases target with
  | cmd =>
    simp only [execCommandWord]
    generalize decodeCommand data = decoded
    cases decoded with
    | error e => rfl
    | ok i => cases i <;> rfl
  | _ => rfl

theorem exec_hwr_cases (off : BitVec 16) (data : Word) (s t : State) (h : exec (.hwr off data) s = .next t) :
    (s.busy = true ∧ t = s) ∨ (s.busy = false ∧ t = (hwrEffect off data s).retire) := by
  rw [exec_hwr_eq] at h
  split at h <;> cases h
  · exact .inl ⟨by assumption, rfl⟩
  · exact .inr ⟨by simp_all, rfl⟩

theorem exec_nop_cases (s t : State) (h : exec .nop s = .next t) :
    (s.busy = true ∧ t = s) ∨ (s.busy = false ∧ t = s.retire) := performWrite_next s t _ h

theorem exec_start_cases (m : Mode) (s t : State) (h : exec (.start m) s = .next t) :
    (s.busy = true ∧ t = s) ∨ (s.busy = false ∧ t = (s.startJob m).retire) := performWrite_next s t _ h

theorem exec_clrerr_cases (s t : State) (h : exec .clrerr s = .next t) :
    (s.busy = true ∧ t = s) ∨ (s.busy = false ∧ t = s.clearError.retire) := performWrite_next s t _ h

theorem exec_initD_cases (s t : State) (h : exec .initD s = .next t) :
    wbHolds (hlm s.hashlen.toNat / 4) = true ∧
    t = State.beginLoop (Config.cSeed ^^^ s.entropy) Config.cLcg { s with wb := zeroFill (hlm s.hashlen.toNat / 4) s.wb } := by
  simp only [exec, execInitD] at h
  split at h <;> cases h
  exact ⟨by assumption, rfl⟩

theorem exec_initR_cases (s t : State) (h : exec .initR s = .next t) : t = s.beginLoop s.ivSeed s.ivLcg := by
  cases h
  rfl

theorem exec_step_cases (m : Mode) (s t : State) (h : exec (.step m) s = .next t) :
    wbHolds (s.hpos.toNat / 4 + 1) = true ∧ t = s.updateStep := by
  simp only [exec, execStep] at h
  split at h <;> cases h
  exact ⟨by assumption, rfl⟩

theorem exec_fold_cases (m : Mode) (s t : State) (h : exec (.fold m) s = .next t) :
    wbHolds (2 * (s.hashlen.toNat / 4)) = true ∧
    t = { s with wb := foldLanes s.wbGen (s.hashlen.toNat / 4) (s.hashlen.toNat / 4) s.wb, phase := .fin } := by
  simp only [exec, execFold] at h
  split at h <;> cases h
  exact ⟨by assumption, rfl⟩

theorem exec_fin_cases (m : Mode) (s t : State) (h : exec (.fin m) s = .next t) : t = { s with phase := .done } := by
  cases h
  rfl

end Sys2Proof.Machine
end

