-- ==== Sys2Proof/Laws/PerInstr.lean ====
section
/-! SUPPORT. Facts about every operation as syntax, one lemma per constructor. -/

namespace Sys2Proof.Laws.EncodingRow

/-- The word that encodes an operation matches its row of the opcode table (30_encoding.md R75 to R77). -/
def Statement (i : Instr) : Prop := (opcodeRow i).matchesWord (encode i) = true

/-- Bit 16 of a header is its `WE`. -/
theorem header_and (we : BitVec 1) (off : BitVec 16) :
    (we ++ off).toNat &&& 0x10000 = (we.getLsbD 0).toNat * 0x10000 := by
  have h : (we ++ off).toNat &&& 2 ^ 16 = ((we ++ off).getLsbD 16).toNat * 2 ^ 16 := Nat.and_two_pow _ _
  rwa [BitVec.getLsbD_append] at h

theorem hrd (off : BitVec 16) : Statement (.hrd off) := by
  simp [Statement, opcodeRow, encode, OpcodeRow.matchesWord, CodeWord.format, CodeWord.tableBits, busWord, header_and]

theorem hwr (off : BitVec 16) (data : Word) : Statement (.hwr off data) := by
  simp [Statement, opcodeRow, encode, OpcodeRow.matchesWord, CodeWord.format, CodeWord.tableBits, busWord, header_and]

theorem nop : Statement .nop := rfl
theorem start (m : Mode) : Statement (.start m) := by cases m <;> rfl
theorem clrerr : Statement .clrerr := rfl
theorem initD : Statement .initD := rfl
theorem initR : Statement .initR := rfl
theorem step (m : Mode) : Statement (.step m) := by cases m <;> rfl
theorem fold (m : Mode) : Statement (.fold m) := by cases m <;> rfl
theorem fin (m : Mode) : Statement (.fin m) := by cases m <;> rfl

end Sys2Proof.Laws.EncodingRow
end

