-- ==== Sys2Proof/Laws/Step.lean ====
section
/-! SUPPORT. Everything a step can do, and how runs are put together. -/

namespace Sys2Proof.Machine

/-- A step performs the engine's micro-operation or the host's transaction (from the state itself, or from the state with the
agent's turn taken off the list), waits, resets, or places a message. -/
theorem step_cases (s t : State) (h : step s = .next t) :
    (∃ i ts, s.engineInstr = some i ∧ exec i { s with turns := ts } = .next t) ∨
    (∃ i ts, s.hostInstr = some i ∧ exec i { s with turns := ts } = .next t) ∨
    (∃ ts, t = { s with turns := ts }) ∨
    (∃ ts, s.turns = .reset :: ts ∧ t = State.assertReset { s with turns := ts }) ∨
    (∃ bytes ts, s.turns = .message bytes :: ts ∧ t = State.placeMessage bytes { s with turns := ts }) := by
  unfold step State.nextMove at h
  cases hT : s.turns with
  | nil =>
    have hs : s = { s with turns := [] } := by rw [← hT]
    rw [hT] at h
    cases he : s.engineInstr with
    | some i =>
      simp only [he, Option.or] at h
      exact .inl ⟨i, [], rfl, hs ▸ h⟩
    | none =>
      cases hh : s.hostInstr with
      | some i =>
        simp only [he, hh, Option.or] at h
        exact .inr (.inl ⟨i, [], rfl, hs ▸ h⟩)
      | none =>
        simp only [he, hh, Option.or] at h
        cases h
        exact .inr (.inr (.inl ⟨[], hs⟩))
  | cons turn ts =>
    rw [hT] at h
    cases turn with
    | engine =>
      cases he : s.engineInstr with
      | some i =>
        simp only [he] at h
        exact .inl ⟨i, ts, rfl, h⟩
      | none =>
        simp only [he] at h
        cases h
        exact .inr (.inr (.inl ⟨ts, rfl⟩))
    | host =>
      cases he : s.hostInstr with
      | some i =>
        simp only [he] at h
        exact .inr (.inl ⟨i, ts, rfl, h⟩)
      | none =>
        simp only [he] at h
        cases h
        exact .inr (.inr (.inl ⟨ts, rfl⟩))
    | reset =>
      cases h
      exact .inr (.inr (.inr (.inl ⟨ts, rfl, rfl⟩)))
    | message bytes =>
      cases h
      exact .inr (.inr (.inr (.inr ⟨bytes, ts, rfl, rfl⟩)))

/-- With no turn listed and a job running, the step is the engine's micro-operation. -/
theorem step_engine (s : State) (i : Instr) (ht : s.turns = []) (hi : s.engineInstr = some i) : step s = exec i s := by
  simp [step, State.nextMove, ht, hi]

/-- A step stops only where the operation that moves stops: with no operation to perform it answers a next state. -/
theorem step_next_of (s : State)
    (he : ∀ i ts, s.engineInstr = some i → ∃ t, exec i { s with turns := ts } = .next t)
    (hh : ∀ i ts, s.hostInstr = some i → ∃ t, exec i { s with turns := ts } = .next t) : ∃ t, step s = .next t := by
  unfold step State.nextMove
  cases hT : s.turns with
  | nil =>
    have hs : s = { s with turns := [] } := by rw [← hT]
    cases e : s.engineInstr with
    | some i =>
      obtain ⟨t, ht⟩ := he i [] e
      exact ⟨t, by simpa only [e, Option.or] using hs ▸ ht⟩
    | none =>
      cases e' : s.hostInstr with
      | some i =>
        obtain ⟨t, ht⟩ := hh i [] e'
        exact ⟨t, by simpa only [e, e', Option.or] using hs ▸ ht⟩
      | none => exact ⟨s, rfl⟩
  | cons turn ts =>
    cases turn with
    | engine =>
      cases e : s.engineInstr with
      | some i => simpa only [e] using he i ts e
      | none => exact ⟨_, rfl⟩
    | host =>
      cases e : s.hostInstr with
      | some i => simpa only [e] using hh i ts e
      | none => exact ⟨_, rfl⟩
    | reset => exact ⟨_, rfl⟩
    | message bytes => exact ⟨_, rfl⟩

theorem runSteps_succ (n : Nat) (s t : State) (h : step s = .next t) : runSteps (n + 1) s = runSteps n t := by
  simp [runSteps, h]

/-- A run of `m + n` steps is a run of `m` and then one of `n`. -/
theorem runSteps_add (m n : Nat) (s t : State) (h : runSteps m s = .next t) : runSteps (m + n) s = runSteps n t := by
  induction m generalizing s with
  | zero =>
    cases h
    rw [Nat.zero_add]
  | succ m ih =>
    rw [Nat.succ_add]
    unfold runSteps at h
    cases hs : step s with
    | next u =>
      rw [hs] at h
      rw [runSteps_succ _ s u hs]
      exact ih u h
    | fault r =>
      rw [hs] at h
      cases h
    | refused r =>
      rw [hs] at h
      cases h

/-- What holds at the start and is kept by every step holds after any run. -/
theorem runSteps_keeps (P : State → Prop) (hP : ∀ s t, P s → step s = .next t → P t) (n : Nat) (s t : State) (h0 : P s)
    (h : runSteps n s = .next t) : P t := by
  induction n generalizing s with
  | zero =>
    cases h
    exact h0
  | succ n ih =>
    unfold runSteps at h
    cases hs : step s with
    | next u =>
      rw [hs] at h
      exact ih u (hP s u h0 hs) h
    | fault r =>
      rw [hs] at h
      cases h
    | refused r =>
      rw [hs] at h
      cases h

end Sys2Proof.Machine
end

