-- ==== Sys2Proof/Tests/Slice0.lean ====
section
/-! SUPPORT. Tests: ill-formed words, words written out bit by bit, one step on small states with results from
95_test_vectors.md, and a witness for every statement that has hypotheses. `WB_BYTES` is open (at least 8), so a test on a buffer of
more than two words is on the shared operation, or takes the capacity as a hypothesis. -/

namespace Sys2Proof.Machine

/-! ## Ill-formed words -/

-- R72: only a write carries data.
theorem test_read_with_data_ill_formed : busLegal ⟨0x00004#17, 1#32⟩ = false := by decide
-- R78: a reserved bit set (V-T11, V-T12), OP = 3 (V-T9), `M` with CLRERR (V-T10), `M` with NOP.
theorem test_commands_ill_formed :
    commandLegal 0x00000021#32 = false ∧ commandLegal 0x80000001#32 = false ∧ commandLegal 0x00000003#32 = false ∧
    commandLegal 0x00000012#32 = false ∧ commandLegal 0x00000010#32 = false := by decide
-- R76, R79: IDLE, DONE, 6 and 7.
theorem test_selectors_ill_formed :
    selectorLegal 0b0000#4 = false ∧ selectorLegal 0b1101#4 = false ∧ selectorLegal 0b0110#4 = false ∧
    selectorLegal 0b1111#4 = false := by decide
theorem test_ill_formed_words_refused :
    decode (.command 0x00000021#32) = .error (.illegalCommand 0x00000021#32) ∧
    decode (.command 0x00000012#32) = .error (.illegalCommand 0x00000012#32) ∧
    decode (.selector 0b0000#4) = .error (.engineAtRest 0b0000#4) ∧
    decode (.selector 0b1101#4) = .error (.engineAtRest 0b1101#4) ∧
    decode (.selector 0b0110#4) = .error (.unreachablePhase 0b0110#4) := by decide

/-! ## Words written out bit by bit from 30_encoding.md R71 to R77 -/

theorem test_decode_hrd : decode (.bus ⟨0b00001000000000100#17, 0#32⟩) = .ok (.hrd 0x1004) := by decide
theorem test_decode_hwr : decode (.bus ⟨0b10000000000010000#17, 8#32⟩) = .ok (.hwr 0x0010 8) := by decide
theorem test_decode_nop : decode (.command 0b00000000000000000000000000000000#32) = .ok .nop := by decide
theorem test_decode_start :
    decode (.command 0b00000000000000000000000000000001#32) = .ok (.start .defaultMode) ∧
    decode (.command 0b00000000000000000000000000010001#32) = .ok (.start .resumeMode) := by decide
theorem test_decode_clrerr : decode (.command 0b00000000000000000000000000000010#32) = .ok .clrerr := by decide
theorem test_decode_initD : decode (.selector 0b0001#4) = .ok .initD := by decide
theorem test_decode_initR : decode (.selector 0b1001#4) = .ok .initR := by decide
theorem test_decode_step :
    decode (.selector 0b0010#4) = .ok (.step .defaultMode) ∧ decode (.selector 0b1010#4) = .ok (.step .resumeMode) := by decide
theorem test_decode_fold :
    decode (.selector 0b0011#4) = .ok (.fold .defaultMode) ∧ decode (.selector 0b1011#4) = .ok (.fold .resumeMode) := by decide
theorem test_decode_fin :
    decode (.selector 0b0100#4) = .ok (.fin .defaultMode) ∧ decode (.selector 0b1100#4) = .ok (.fin .resumeMode) := by decide
-- The same through the bytes of a table row's word.
theorem test_decode_table_words :
    decodeTableWord 17 0x1000 = some (.hrd 0x1000) ∧ decodeTableWord 17 0x10010 = some (.hwr 0x0010 0) ∧
    decodeTableWord 32 0x11 = some (.start .resumeMode) ∧ decodeTableWord 32 0x12 = none ∧
    decodeTableWord 4 0b1001 = some .initR ∧ decodeTableWord 4 5 = none := by decide

/-! ## What a step leaves -/

/-- The next state, if the outcome is one. -/
def nextOf (o : Host.Outcome State Fault Refusal) : Option State :=
  match o with
  | .next s => some s
  | .fault _ => none
  | .refused _ => none

/-- One observation of the next state. -/
def seen {α : Type} (f : State → α) (o : Host.Outcome State Fault Refusal) : Option α := (nextOf o).map f

/-- The visible error state: `ERR`, `ERRINFO`, `STATUS`. -/
def errorView (s : State) : BitVec 4 × Word × Word := (s.err, s.errinfo, s.statusWord)

/-- A Working Buffer holding the listed words from index 0 up. -/
def bufferOf (words : List Word) : Memory :=
  (List.range words.length).foldl (fun m i => putWbWord m i (words.getD i 0#32)) []

/-- The first `n` words of a Working Buffer. -/
def wordsOf (n : Nat) (m : Memory) : List Word := (List.range n).map (wbWordOf 0 m)

/-- A state at rest with a recorded error (V-T3). -/
def erred : State := { State.reset with err := 1#4, errinfo := 0x80000012#32 }

/-- A state after a job. -/
def atDone : State := { State.reset with phase := .done, hashlen := 4#32 }

-- HRD: V-T1, V-T4.
theorem test_hrd_status : seen State.hrdata (exec (.hrd 0x0004) atDone) = some 0x00000002#32 := by decide
theorem test_hrd_reserved :
    seen (fun t => (t.hrdata, errorView t)) (exec (.hrd 0x000C) { State.reset with hrdata := 7#32 }) =
      some (0x00000000#32, 1#4, 0x0000000C#32, 0x00000100#32) := by decide
-- HWR: the worked example of R123, V-T3.
theorem test_hwr_window : seen (fun t => t.wbWord 1) (exec (.hwr 0x1004 0xDEADBEEF) State.reset) = some 0xDEADBEEF#32 := by
  decide
theorem test_hwr_misaligned :
    seen errorView (exec (.hwr 0x0012 0) State.reset) = some (1#4, 0x80000012#32, 0x00000100#32) := by decide
-- HWR to CMD: V-T11 (E_CMD before E_HASHLEN), V-T16 (the first error is kept).
theorem test_hwr_illegal_command :
    seen errorView (exec (.hwr 0x0000 0x00000021) { State.reset with hashlen := 6#32 }) = some (2#4, 0x00000021#32, 0x00000200#32) ∧
    seen errorView (exec (.hwr 0x0000 0x00000003) erred) = some (1#4, 0x80000012#32, 0x00000100#32) := by decide
-- NOP: R124.
theorem test_nop : seen State.statusWord (exec .nop atDone) = some 0x00000002#32 := by decide
-- START: the worked examples of R125, V-T13, V-T17.
theorem test_start_accepts :
    seen (fun t => (t.mode, t.phase, t.statusWord)) (exec (.start .resumeMode) atDone) =
      some (.resumeMode, .init, 0x00000001#32) := by decide
theorem test_start_refuses :
    seen errorView (exec (.start .defaultMode) { State.reset with hashlen := 6#32 }) = some (3#4, 6#32, 0x00000300#32) ∧
    seen errorView (exec (.start .defaultMode) State.reset) = some (3#4, 0#32, 0x00000300#32) ∧
    seen (fun t => (t.phase, t.err)) (exec (.start .defaultMode) { erred with hashlen := 4#32 }) = some (.idle, 1#4) := by decide
-- CLRERR: the worked example of R126.
theorem test_clrerr :
    seen errorView (exec .clrerr { State.reset with err := 3#4, errinfo := 6#32 }) = some (0#4, 0#32, 0#32) := by decide
-- The hold: V-T20, V-T21, V-T22.
theorem test_hold :
    seen (fun t => (t.msglen, t.port.length))
      (exec (.hwr 0x0014 7) { atDone with phase := .loop, port := [⟨0x10014#17, 7#32⟩] }) = some (0#32, 1) ∧
    seen State.hrdata (exec (.hrd 0x0004) { atDone with phase := .loop }) = some 0x00000001#32 ∧
    seen State.err (exec (.hrd 0x0003) { atDone with phase := .loop }) = some 0#4 := by decide

-- INIT.D: V-J1 (the seed and multiplier are open parameters).
theorem test_initD :
    seen (fun t => (t.wbWord 0, t.c, t.lb, t.k, t.hpos, t.phase))
      (exec .initD { State.reset with phase := .init, hashlen := 4#32, wb := bufferOf [0xFFFFFFFA] }) =
      some (0#32, 4#64, 0xFF#8, 0#64, 0#16, .loop) := by decide
-- INIT.R: V-R1.
theorem test_initR :
    seen (fun t => (t.lcg, t.seed, t.hpos, t.lb, t.c))
      (exec .initR { State.reset with
        phase := .init, mode := .resumeMode, hashlen := 8#32, msglen := 3#32, msg := Memory.ofBytes 0 [0x78, 0x79, 0x7A]
        iv0 := 0x04030201, iv1 := 0x08070605, iv2 := 0x0C0B0A09, iv3 := 0x100F0E0D }) =
      some (0x0807060504030201#64, 0x100F0E0D0C0B0A09#64, 0#16, 0x85#8, 16#64) := by decide

/-- The entry of a STEP: Seed, Multiplier, the word at the cursor, the message word (as four bytes), the cursor, the digest length. -/
def stepEntry (seed lcg : DWord) (h : Word) (msgw : List Byte) (hpos : BitVec 16) (hashlen : Word) : State :=
  { State.reset with
    phase := .loop, seed := seed, lcg := lcg, wb := putWbWord [] (hpos.toNat / 4) h, hpos := hpos, hashlen := hashlen
    msglen := 4#32, msg := Memory.ofBytes 0 msgw, c := 64#64 }

/-- What 95_test_vectors.md section 3.4 gives of the exit. -/
def stepExit (cursor : Nat) (t : State) : Word × DWord × DWord × BitVec 16 := (t.wbWord cursor, t.seed, t.lcg, t.hpos)

-- STEP: V-S2 and V-S4, by the operation.
theorem test_step_wraps :
    seen (stepExit 0) (exec (.step .defaultMode)
      (stepEntry 0xFFFFFFFFFFFFFFFF 0xFFFFFFFFFFFFFFFF 0xFFFFFFFF [0xFF, 0xFF, 0xFF, 0xFF] 0 4)) =
      some (0#32, 0xFFFFFFFFFFFFFFFE#64, 0xFFFFFFFFFFFFFFFD#64, 0#16) ∧
    seen (stepExit 0) (exec (.step .resumeMode)
      (stepEntry 1 0xFFFFFFFFFFFFFFFF 0x12345678 [0xF0, 0xDE, 0xBC, 0x9A] 0 4)) =
      some (0x12345678#32, 0x0000000077777777#64, 0xFFFFFFFFFFFFFFFF#64, 0#16) := by decide
-- STEP: V-S5 and V-S6 (the cursor advances and wraps), on the shared update.
theorem test_step_cursor :
    stepExit 2 (State.updateStep (stepEntry 0x0123456789ABCDEF 0xFEDCBA9876543210 0xDEADBEEF [0xBE, 0xBA, 0xFE, 0xCA] 8 8)) =
      (0x0364999F#32, 0xDDC927702DD8EAB6#64, 0xDCA5E20890F2A51F#64, 12#16) ∧
    stepExit 3 (State.updateStep (stepEntry 0x0123456789ABCDEF 0xFEDCBA9876543210 0xDEADBEEF [0xBE, 0xBA, 0xFE, 0xCA] 12 8)) =
      (0x0364999F#32, 0xDDC927702DD8EAB6#64, 0xDCA5E20890F2A51F#64, 0#16) := by decide
-- STEP: the loop exit, the worked example of R102 (`HASHLEN = 4` goes to FIN).
theorem test_step_exit :
    seen (fun t => (stepExit 0 t, t.k, t.phase)) (exec (.step .defaultMode)
      { State.reset with
        phase := .loop, seed := 0x0000000100000001, lcg := 0x0000000200000003, wb := bufferOf [0], hashlen := 4#32, c := 4#64
        lb := 0xFF#8 }) =
      some ((0xFFFFFFFA#32, 0xFFFFFFFAFFFFFFFB#64, 0xFFFFFFFCFFFFFFFF#64, 0#16), 4#64, .fin) ∧
    State.nextPhase { State.reset with phase := .loop, hashlen := 8#32, k := 12#64, c := 16#64 } = .fold := by decide
-- FOLD: V-F1 and V-F3, on the shared loop; lane 1 stays.
theorem test_fold_lanes :
    wordsOf 4 (foldLanes 0 2 2 (bufferOf [0xFFFFFE00, 0x9381BBF4, 0x821E74C2, 0x738339F2])) =
      [0x7DE18AC2#32, 0xE0028206#32, 0x821E74C2#32, 0x738339F2#32] ∧
    wordsOf 6 (foldLanes 0 3 3 (bufferOf [1, 2, 3, 4, 5, 6])) = [5#32, 7#32, 5#32, 4#32, 5#32, 6#32] := by decide
-- FOLD by the operation: one lane of one word, as the pseudocode of R110 gives it.
theorem test_fold :
    seen (fun t => (t.wbWord 0, t.wbWord 1, t.phase)) (exec (.fold .defaultMode)
      { State.reset with phase := .fold, hashlen := 4#32, wb := bufferOf [0xFFFFFE00, 0x821E74C2] }) =
      some (0x7DE18AC2#32, 0x821E74C2#32, .fin) := by decide
-- FIN: the worked example of R112.
theorem test_fin :
    seen (fun t => (t.phase, t.statusWord)) (exec (.fin .resumeMode) { State.reset with phase := .fin }) =
      some (.done, 0x00000002#32) := by decide

/-! ## The padding controller: 95_test_vectors.md sections 3.1 to 3.3 -/

theorem test_hlm : hlm 4 = 4 ∧ hlm 8 = 16 ∧ hlm 12 = 24 ∧ hlm 128 = 256 ∧ hlm 0x80000000 = 0x100000000 := by decide
theorem test_padLen :
    padLen 0 4 = 4 ∧ padLen 4 4 = 8 ∧ padLen 5 4 = 12 ∧ padLen 8 8 = 16 ∧ padLen 9 8 = 32 ∧ padLen 25 8 = 48 ∧
    padLen 13 12 = 48 ∧ padLen 33 16 = 64 ∧ padLen 0xFFFFFFFF 4 = 0x100000004 ∧ padLen 0xFFFFFFFF 0x7800 = 0x10000E000 := by
  decide

/-- A message as it stands when a job over it is in its loop. -/
def messageState (bytes : List Byte) (lb : Byte) : State :=
  { State.reset with msglen := BitVec.ofNat 32 bytes.length, msg := Memory.ofBytes 0 bytes, lb := lb }

-- V-B1, V-B2, V-B4, V-B6.
theorem test_padByte :
    (messageState [] 0).padByte = 0xFF#8 ∧ (messageState [0x61] 0).padByte = 0x9E#8 ∧ (messageState [0xFF] 0).padByte = 0x00#8 ∧
    (messageState [0x80, 0x01, 0x02, 0x03, 0x04, 0x05, 0x06] 0).padByte = 0xF9#8 := by decide
-- V-M1, V-M2, V-M5, V-M8, V-M9.
theorem test_msgWord :
    (messageState [] 0xFF).msgWord 0 = 0xFFFFFFFF#32 ∧ (messageState [0x61] 0x9E).msgWord 0 = 0x9E9E9E61#32 ∧
    (messageState [0x11, 0x22, 0x33, 0x44, 0x55, 0x66] 0x99).msgWord 0 = 0x44332211#32 ∧
    (messageState [0x11, 0x22, 0x33, 0x44, 0x55, 0x66] 0x99).msgWord 4 = 0x99996655#32 ∧
    (messageState [0x11, 0x22, 0x33, 0x44, 0x55, 0x66] 0x99).msgWord 8 = 0x99999999#32 ∧
    (messageState [0x80, 0x01, 0x02, 0x03, 0x04, 0x05, 0x06] 0xF9).msgWord 4 = 0xF9060504#32 ∧
    (messageState [0x78, 0x79, 0x7A] 0x85).msgWord 0 = 0x857A7978#32 := by decide

/-! ## Steps of the machine -/

-- The word placed where the next step takes it from is what the step performs.
theorem test_step_runs_placed_words :
    seen (fun t => (t.hrdata, t.port.length)) (step (State.withFetchWord State.reset 17 0x00004)) = some (0#32, 0) ∧
    seen State.err (step (State.withFetchWord State.reset 32 1)) = some 3#4 ∧
    seen State.phase (step (State.withFetchWord State.reset 4 9)) = some .loop ∧
    seen State.phase (step (State.withFetchWord State.reset 4 4)) = some .done := by decide
-- One word of every row runs as the first instruction after reset.
theorem test_every_row_steps :
    ([(17, 0x00004), (17, 0x10010), (32, 0), (32, 1), (32, 2), (4, 1), (4, 9), (4, 2), (4, 3), (4, 4)].all fun row =>
      (nextOf (step (State.withFetchWord State.reset row.1 row.2))).isSome) = true := by decide
theorem test_step_waits : step State.reset = .next State.reset := rfl

/-! ## Witnesses: states and operands that meet each statement's hypotheses together -/

theorem jobLength_four : jobLength 4 = true := by
  have := wbBytes_bounds
  rw [jobLength_iff, show hlm 4 = 4 from rfl]
  omega

theorem jobLength_eight (h : 16 ≤ Config.wbBytes) : jobLength 8 = true := by
  rw [jobLength_iff, show hlm 8 = 16 from rfl]
  omega

/-- A job of the empty message with a digest of 4 bytes, in INIT. -/
def inInit (m : Mode) : State := { State.reset with phase := .init, mode := m, hashlen := 4#32 }

/-- The same job before its only STEP, with a port that waits. -/
def inLoop : State :=
  { State.reset with phase := .loop, hashlen := 4#32, c := 4#64, lb := 0xFF#8, port := [⟨0x10014#17, 7#32⟩] }

/-- The same job before FIN. -/
def inFin : State := { State.reset with phase := .fin, hashlen := 4#32, c := 4#64, k := 4#64, lb := 0xFF#8 }

/-- A job of the empty message with a digest of 8 bytes, before FOLD. -/
def inFold : State := { State.reset with phase := .fold, hashlen := 8#32, c := 16#64, k := 16#64, lb := 0xFF#8 }

theorem inInit_inv (m : Mode) : (inInit m).Inv :=
  ⟨⟨rfl, rfl, rfl⟩, ⟨Nat.zero_le 3, fun _ => rfl⟩, fun _ => ⟨jobLength_four, rfl⟩, trivial⟩

theorem inLoop_inv : inLoop.Inv :=
  ⟨⟨rfl, rfl, rfl⟩, ⟨Nat.zero_le 3, fun _ => rfl⟩, fun _ => ⟨jobLength_four, rfl⟩, by
    refine ⟨?_, ?_, ?_, ?_, ?_⟩ <;> decide⟩

theorem inFin_inv : inFin.Inv :=
  ⟨⟨rfl, rfl, rfl⟩, ⟨Nat.zero_le 3, fun _ => rfl⟩, fun _ => ⟨jobLength_four, rfl⟩, by
    refine ⟨?_, ?_, ?_, ?_⟩ <;> decide⟩

theorem inFold_inv (h : 16 ≤ Config.wbBytes) : inFold.Inv :=
  ⟨⟨rfl, rfl, rfl⟩, ⟨Nat.zero_le 3, fun _ => rfl⟩, fun _ => ⟨jobLength_eight h, rfl⟩, by
    refine ⟨?_, ?_, ?_, ?_, ?_⟩ <;> decide⟩

theorem witness_DecodeInvertsEncode :
    (CodeWord.bus ⟨0x1FFFF#17, 0xFFFFFFFF#32⟩).legal = true ∧ (CodeWord.bus ⟨0x0FFFF#17, 0#32⟩).legal = true ∧
    (CodeWord.command 0x00000011#32).legal = true ∧ (CodeWord.selector 0b1100#4).legal = true := by decide

theorem witness_DecodeFollowsTheOpcodeTable :
    decode (.command 0x00000011#32) = .ok (.start .resumeMode) ∧
    (opcodeRow (.start .defaultMode)).matchesWord (.command 0x00000011#32) = true ∧
    (opcodeRow (.hrd 0)).matchesWord (.bus ⟨0x0FFFF#17, 0#32⟩) = true ∧
    (opcodeRow .initR).matchesWord (.selector 0b1001#4) = true := by decide

theorem witness_SelectorPicksTheMicroOperation :
    0b1010#4 &&& 0b0111#4 = 0b0010#4 ∧ 0b1011#4 &&& 0b0111#4 = 0b0011#4 ∧ 0b0100#4 &&& 0b0111#4 = 0b0100#4 ∧
    0b1000#4 &&& 0b0111#4 = 0#4 ∧ 0b1101#4 &&& 0b0111#4 = 5#4 := by decide

theorem witness_StepRunsTheDecodedInstruction :
    ((inInit .resumeMode).turns = [] ∧ decode (.selector (inInit .resumeMode).sel) = .ok .initR) ∧
    (∀ s : State, s = { State.reset with port := [⟨0x10010#17, 8#32⟩] } →
      s.turns = [] ∧ s.busy = false ∧ s.port = ⟨0x10010#17, 8#32⟩ :: [] ∧
        decode (.bus ⟨0x10010#17, 8#32⟩) = .ok (.hwr 0x0010 8)) ∧
    (∀ s : State, s = { inLoop with turns := [.engine, .host] } →
      s.turns = .engine :: [.host] ∧ decode (.selector s.sel) = .ok (.step .defaultMode)) ∧
    (∀ s : State, s = { inLoop with turns := [.host] } →
      s.turns = .host :: [] ∧ s.port = ⟨0x10014#17, 7#32⟩ :: [] ∧ decode (.bus ⟨0x10014#17, 7#32⟩) = .ok (.hwr 0x0014 7)) := by
  refine ⟨by decide, ?_, ?_, ?_⟩ <;> rintro s rfl <;> decide

theorem witness_StepWaitsWhereNothingMoves :
    (State.reset.busy = false ∧ State.reset.turns = [] ∧ State.reset.port = []) ∧
    (∀ s : State, s = { atDone with turns := [.engine] } → s.busy = false ∧ s.turns = .engine :: []) ∧
    (∀ s : State, s = { atDone with turns := [.host] } → s.busy = false ∧ s.turns = .host :: [] ∧ s.port = []) := by
  refine ⟨by decide, ?_, ?_⟩ <;> rintro s rfl <;> decide

theorem witness_ResetInputSetsTheResetState :
    (∀ s : State, s = { inLoop with turns := [.reset] } →
      s.turns = .reset :: [] ∧ s.port = ⟨0x10014#17, 7#32⟩ :: [] ∧ s.busy = true ∧ (0x10014#17) ≠ 0x00004#17 ∧
        (0x10014#17) ≠ 0x00008#17) ∧
    ∀ s : State, s = { atDone with turns := [.reset] } → s.turns = .reset :: [] ∧ s.busy = false := by
  refine ⟨?_, ?_⟩ <;> rintro s rfl <;> decide

theorem witness_MessageIsPlacedOnlyAtRest :
    (∀ s : State, s = { inLoop with turns := [.message [1#8]] } → s.turns = .message [1#8] :: [] ∧ s.busy = true) ∧
    ∀ s : State, s = { atDone with turns := [.message [1#8]] } →
      s.turns = .message [1#8] :: [] ∧ s.busy = false ∧ [1#8][0]? = some 1#8 := by
  refine ⟨?_, ?_⟩ <;> rintro s rfl <;> decide

theorem witness_InvHoldsAtPowerOn : Memory.wf (Memory.ofBytes 0 [0x68#8, 0x65#8]) = true := by decide

theorem witness_EveryStepKeepsInv : inFin.Inv ∧ step inFin = .next { inFin with phase := .done } := ⟨inFin_inv, rfl⟩

theorem witness_NoStepStops : inLoop.Inv ∧ (inInit .defaultMode).Inv := ⟨inLoop_inv, inInit_inv .defaultMode⟩

/-- The transactions that begin a job with a digest of `hashLen` bytes. -/
def startJobPort (hashLen : Word) : List BusWord := [⟨0x10010#17, hashLen⟩, ⟨0x10000#17, 1#32⟩]

theorem next_of_seen {α : Type} {f : State → α} {o : Host.Outcome State Fault Refusal} {v : α} (h : seen f o = some v) :
    ∃ t, o = .next t ∧ f t = v := by
  cases o with
  | next t => exact ⟨t, rfl, Option.some.inj h⟩
  | fault r => cases h
  | refused r => cases h

theorem witness_ReachableStatesMeetTheInvariants :
    Memory.wf [] = true ∧
    (∃ t, runSteps 3 (State.powerOn [] (startJobPort 4) []) = .next t ∧ t.phase = .loop) ∧
    ∃ t, runSteps 4 (State.powerOn [] (startJobPort 4) []) = .next t ∧ t.phase = .fin :=
  ⟨rfl, next_of_seen (f := State.phase) (by decide), next_of_seen (f := State.phase) (by decide)⟩

theorem wbHolds_four (h : 16 ≤ Config.wbBytes) (n : Nat) (hn : n ≤ 4) : wbHolds n = true := by
  rw [wbHolds, decide_eq_true_eq]
  omega

/-- The phase FOLD is reached where the Working Buffer has room for two lanes. -/
theorem witness_ReachableStatesMeetTheInvariants_fold (h : 16 ≤ Config.wbBytes) :
    ∃ t, runSteps 7 (State.powerOn [] (startJobPort 8) []) = .next t ∧ t.phase = .fold := by
  have run : ∀ (n : Nat) (s u : State), step s = .next u → (∃ t, runSteps n u = .next t ∧ t.phase = .fold) →
      ∃ t, runSteps (n + 1) s = .next t ∧ t.phase = .fold := by
    intro n s u hs ht
    rwa [runSteps_succ n s u hs]
  have loop : ∀ s : State, s.engineInstr = some (.step .defaultMode) → s.turns = [] → s.hpos.toNat / 4 + 1 ≤ 4 →
      step s = .next s.updateStep := by
    intro s hi ht hn
    rw [step_engine s _ ht hi]
    exact if_pos (wbHolds_four h _ hn)
  let s1 : State := { State.powerOn [] [⟨0x10000#17, 1#32⟩] [] with hashlen := 8#32 }
  let s2 : State := { s1 with phase := .init, port := [] }
  let s3 : State := State.beginLoop (Config.cSeed ^^^ s2.entropy) Config.cLcg { s2 with wb := zeroFill 4 [] }
  refine run 6 _ s1 rfl (run 5 _ s2 ?_ (run 4 _ s3 ?_ (run 3 _ s3.updateStep ?_ (run 2 _ s3.updateStep.updateStep ?_
    (run 1 _ s3.updateStep.updateStep.updateStep ?_ (run 0 _ s3.updateStep.updateStep.updateStep.updateStep ?_ ⟨_, rfl, ?_⟩))))))
  · have start : step s1 = exec (.hwr 0x0000#16 1#32) s1 := by
      have he : s1.engineInstr = none := by decide
      have hh : s1.hostInstr = some (.hwr 0x0000#16 1#32) := by decide
      have ht : s1.turns = [] := rfl
      simp [step, State.nextMove, he, hh, ht]
    have decoded : decodeCommand 1#32 = .ok (.start .defaultMode) := by decide
    rw [start, exec_hwr_eq, if_neg (by decide), hwrEffect, hostTarget_cmd, decoded]
    show Host.Outcome.next (State.startJob .defaultMode s1).retire = _
    rw [State.startJob, if_neg (by decide), if_pos (show jobLength s1.hashlen.toNat = true from jobLength_eight h)]
    rfl
  · rw [step_engine s2 .initD rfl (by decide)]
    have e : hlm s2.hashlen.toNat / 4 = 4 := by decide
    simp only [exec, execInitD, e, wbHolds_four h 4 (le_refl 4), if_true]
    rfl
  · exact loop _ (by decide) rfl (by decide)
  · exact loop _ (by decide) rfl (by decide)
  · exact loop _ (by decide) rfl (by decide)
  · exact loop _ (by decide) rfl (by decide)
  · decide

theorem witness_ReachableJobsHaveNoError :
    ∃ t, runSteps 2 (State.powerOn [] (startJobPort 4) []) = .next t ∧ t.busy = true :=
  next_of_seen (f := State.busy) (by decide)

theorem witness_HrdAnswersOrRaises :
    (inLoop.busy = true ∧ (0x0000#16) ≠ 0x0004#16 ∧ (0x0000#16) ≠ 0x0008#16) ∧ atDone.busy = false ∧
    (0 < Config.wbBytes ∧ (0x1000#16).toNat = 0x1000 + 4 * 0) ∧
    (∃ i, 4 * i < Config.wbBytes ∧ (BitVec.ofNat 16 (0x0FFC + Config.wbBytes)).toNat = 0x1000 + 4 * i) ∧
    (0x0001#16).toNat % 4 ≠ 0 ∧ (0x0030 ≤ (0x0030#16).toNat ∧ (0x0FFC#16).toNat < 0x1000) ∧
    (Config.wbBytes < 0xF000 → 0x1000 + Config.wbBytes ≤ (BitVec.ofNat 16 (0x1000 + Config.wbBytes)).toNat) := by
  have := wbBytes_bounds
  refine ⟨by decide, by decide, ⟨by omega, by decide⟩, ⟨Config.wbBytes / 4 - 1, by omega, ?_⟩, by decide, by decide, fun h => ?_⟩
  · rw [BitVec.toNat_ofNat, Nat.mod_eq_of_lt (by omega)]
    omega
  · rw [BitVec.toNat_ofNat, Nat.mod_eq_of_lt (by omega)]

theorem witness_HwrWritesOrRaises :
    inLoop.busy = true ∧ atDone.busy = false ∧ decodeCommand 0x00000011#32 = .ok (.start .resumeMode) ∧
    decodeCommand 0x00000003#32 = .error (.illegalCommand 0x00000003#32) ∧
    (4 * 1 < Config.wbBytes ∧ (0x1004#16).toNat = 0x1000 + 4 * 1) ∧ (0xFFFF#16).toNat % 4 ≠ 0 := by
  have := wbBytes_bounds
  exact ⟨by decide, by decide, by decide, by decide, ⟨by omega, by decide⟩, by decide⟩

theorem witness_HostCannotTouchARunningJob :
    ∀ w ∈ [(⟨0x10014#17, 7#32⟩ : BusWord), ⟨0x00004#17, 0#32⟩, ⟨0x00008#17, 0#32⟩],
      ∀ s : State, s = { inLoop with turns := [.host], port := [w] } →
        s.turns = .host :: [] ∧ s.busy = true ∧ s.port = w :: [] := by
  rintro w - s rfl
  exact ⟨rfl, rfl, rfl⟩

theorem witness_NopChangesNothing : inLoop.busy = true ∧ atDone.busy = false := by decide

theorem witness_ClrerrClearsTheError : inLoop.busy = true ∧ erred.busy = false ∧ erred.err ≠ 0#4 := by decide

theorem witness_StartBeginsIgnoresOrRefuses :
    inLoop.busy = true ∧ (erred.busy = false ∧ erred.err ≠ 0#4) ∧ (State.reset.busy = false ∧ State.reset.err = 0#4) ∧
    ((3#32).toNat < 4 ∧ (6#32).toNat % 4 ≠ 0 ∧ Config.wbBytes < hlm (0xFFFFFFFC#32).toNat) ∧
    (4 ≤ (4#32).toNat ∧ (4#32).toNat % 4 = 0 ∧ hlm (4#32).toNat ≤ Config.wbBytes) := by
  have := wbBytes_bounds
  have h1 : hlm (0xFFFFFFFC#32).toNat = 0x1FFFFFFF8 := by decide
  have h2 : hlm (4#32).toNat = 4 := by decide
  rw [h1, h2]
  exact ⟨by decide, by decide, by decide, ⟨by decide, by decide, by omega⟩, by decide, by decide, by omega⟩

theorem witness_FirstErrorIsKept :
    erred.err ≠ 0#4 ∧ exec (.hrd 0x000C) erred = .next { erred with hrdata := 0#32 } ∧
    Instr.hrd 0x000C ≠ .clrerr ∧ Instr.hrd 0x000C ≠ .hwr 0x0000#16 0x00000002#32 := ⟨by decide, rfl, by decide, by decide⟩

theorem witness_RaisedErrorsAreRecorded :
    (∃ t, exec (.hrd 0x000C) State.reset = .next t ∧ t.err = 1#4) ∧ (∃ t, exec (.hwr 0x000C 0) State.reset = .next t ∧ t.err = 1#4) ∧
    (∃ t, exec (.hwr 0x0000 3) State.reset = .next t ∧ t.err = 2#4) ∧ (∃ t, exec (.hwr 0x0000 1) State.reset = .next t ∧ t.err = 3#4) ∧
    ∃ t, exec (.start .defaultMode) State.reset = .next t ∧ t.err = 3#4 :=
  ⟨next_of_seen (f := State.err) (by decide), next_of_seen (f := State.err) (by decide),
    next_of_seen (f := State.err) (by decide), next_of_seen (f := State.err) (by decide),
    next_of_seen (f := State.err) (by decide)⟩

theorem witness_StatusWordLayout : erred.busy = false ∧ (7 < 8 ∧ 8 ≤ 8 ∧ 11 < 12) := by decide

theorem witness_WindowWriteThenRead : atDone.busy = false ∧ 4 * 0 < Config.wbBytes ∧ 4 * (Config.wbBytes / 4 - 1) < Config.wbBytes := by
  have := wbBytes_bounds
  exact ⟨by decide, by omega, by omega⟩

theorem witness_InitDResult :
    ((inInit .defaultMode).phase = .init ∧ (inInit .defaultMode).mode = .defaultMode) ∧
    4 * (hlm (inInit .defaultMode).hashlen.toNat / 4) ≤ Config.wbBytes ∧ 0 < hlm (inInit .defaultMode).hashlen.toNat / 4 := by
  have := wbBytes_bounds
  have h : hlm (inInit .defaultMode).hashlen.toNat = 4 := by decide
  rw [h]
  exact ⟨by decide, by omega, by decide⟩

theorem witness_InitRResult : (inInit .resumeMode).phase = .init ∧ (inInit .resumeMode).mode = .resumeMode := by decide

theorem witness_StepResult :
    inLoop.phase = .loop ∧ 4 * (inLoop.hpos.toNat / 4) + 4 ≤ Config.wbBytes ∧ inLoop.k + 4#64 = inLoop.c ∧
    (inLoop.hpos + 4#16).toNat = hlm inLoop.hashlen.toNat := by
  have := wbBytes_bounds
  have h : 4 * (inLoop.hpos.toNat / 4) + 4 = 4 := by decide
  rw [h]
  exact ⟨by decide, by omega, by decide, by decide⟩

theorem witness_FoldResult (h : 16 ≤ Config.wbBytes) :
    inFold.phase = .fold ∧ 4 * (2 * (inFold.hashlen.toNat / 4)) ≤ Config.wbBytes ∧ 1 < inFold.hashlen.toNat / 4 := by
  have e : 4 * (2 * (inFold.hashlen.toNat / 4)) = 16 := by decide
  rw [e]
  exact ⟨by decide, h, by decide⟩

/-- For every capacity: one lane of one word, in a state no run reaches. -/
theorem witness_FoldResult_small : 4 * (2 * (inLoop.hashlen.toNat / 4)) ≤ Config.wbBytes ∧ 0 < inLoop.hashlen.toNat / 4 := by
  have := wbBytes_bounds
  have e : 4 * (2 * (inLoop.hashlen.toNat / 4)) = 8 := by decide
  rw [e]
  exact ⟨by omega, by decide⟩

theorem witness_FinResult : inFin.phase = .fin := by decide

theorem witness_EngineStopsOutsideTheBuffer :
    ∀ s : State, s = { State.reset with hashlen := 0xFFFFFFFC#32, hpos := 0xFFFC#16 } →
      Config.wbBytes < 4 * (hlm s.hashlen.toNat / 4) ∧ Config.wbBytes < 4 * (s.hpos.toNat / 4) + 4 ∧
      Config.wbBytes < 4 * (2 * (s.hashlen.toNat / 4)) := by
  rintro s rfl
  have := wbBytes_bounds
  exact ⟨lt_of_le_of_lt this.2.1 (by decide), lt_of_le_of_lt this.2.1 (by decide), lt_of_le_of_lt this.2.1 (by decide)⟩

theorem witness_MessageWordCases :
    0 + 4 ≤ (messageState [0x61, 0x62, 0x63, 0x64] 0x9B).msglen.toNat ∧ (messageState [0xFF, 0xFF, 0xFF] 0).msglen.toNat = 0 + 3 ∧
    (messageState [1, 2] 0).msglen.toNat = 0 + 2 ∧ (messageState [1] 0).msglen.toNat = 0 + 1 ∧
    (messageState [] 0).msglen.toNat ≤ 0 := by decide

theorem witness_PadByteComplementsTheLastByte :
    (messageState [] 0).msglen = 0#32 ∧ 0 < (messageState [0x61] 0).msglen.toNat := by decide

theorem witness_PaddedLengthIsLeast : 4 ≤ 8 ∧ 8 % 4 = 0 ∧ IsLeast {n | 4 ∣ n ∧ 9 ≤ n} 12 := by
  refine ⟨by decide, by decide, ⟨by decide, by decide⟩, ?_⟩
  rintro n ⟨⟨k, rfl⟩, h⟩
  omega

theorem witness_PaddedLengthBounds : 4 ≤ 12 ∧ 12 % 4 = 0 := by decide

theorem witness_PaddedLengthNeverWraps :
    (0xFFFFFFFF < 2 ^ 32 ∧ 4 ≤ 4 ∧ 4 % 4 = 0 ∧ 4 ≤ Config.wbBytes ∧ hlm 4 ≤ Config.wbBytes) ∧ inLoop.Inv ∧ inLoop.phase = .loop := by
  have := ((jobLength_iff 4).1 jobLength_four).2
  exact ⟨⟨by decide, by decide, by decide, this, this⟩, inLoop_inv, rfl⟩

/-- Two stores that agree below `MSGLEN` and differ at it. -/
theorem witness_NoReadPastTheMessage :
    ∀ s : State, s = { messageState [0x61] 0x9E with phase := .init, hashlen := 4#32 } →
      (∀ a, a < s.msglen.toNat → State.msgByte { s with msg := Memory.ofBytes 0 [0x61, 0x62], msgGen := 1 } a = s.msgByte a) ∧
      ∃ t, exec .initR s = .next t ∧ t.phase = .loop := by
  rintro s rfl
  refine ⟨?_, _, rfl, rfl⟩
  rintro (_ | a) h
  · decide
  · change a + 1 < 1 at h
    omega

theorem witness_HiddenRegistersCannotBeRead : exec (.hrd 0x0008) erred = .next { erred with hrdata := 0x80000012#32 } := rfl

theorem witness_InitialisationsReadOnlyTheirOwnInput :
    (∃ t, exec .initR (inInit .resumeMode) = .next t ∧ t.phase = .loop) ∧
    ∃ t, exec .initD (inInit .defaultMode) = .next t ∧ t.phase = .loop :=
  ⟨next_of_seen (f := State.phase) (by decide), next_of_seen (f := State.phase) (by decide)⟩

theorem witness_PhaseMovesAlongItsEdges :
    step inFin = .next { inFin with phase := .done } ∧ (∃ t, step inLoop = .next t ∧ t.phase = .fin) ∧
    (∃ t, step (inInit .resumeMode) = .next t ∧ t.phase = .loop) ∧
    ∃ t, step { atDone with port := [⟨0x10000#17, 1#32⟩] } = .next t ∧ t.phase = .init :=
  ⟨rfl, next_of_seen (f := State.phase) (by decide), next_of_seen (f := State.phase) (by decide),
    next_of_seen (f := State.phase) (by decide)⟩

theorem witness_ModeIsWrittenOnlyByStart :
    (∃ t, exec (.start .resumeMode) atDone = .next t ∧ t.mode = .resumeMode) ∧
    ∃ t, exec (.hwr 0x0000 0x00000011) atDone = .next t ∧ t.mode = .resumeMode :=
  ⟨next_of_seen (f := State.mode) (by decide), next_of_seen (f := State.mode) (by decide)⟩

theorem witness_EngineRegisterWriters :
    (∃ t, exec (.step .defaultMode) inLoop = .next t ∧ t.k = 4#64) ∧
    ∃ t, exec .initR (inInit .resumeMode) = .next t ∧ (t.c, t.lb) = (4#64, 0xFF#8) :=
  ⟨next_of_seen (f := State.k) (by decide), next_of_seen (f := fun t => (t.c, t.lb)) (by decide)⟩

theorem witness_WorkingBufferWriters :
    (∃ t, exec (.hwr 0x1000 0x12345678) { atDone with wb := bufferOf [0] } = .next t ∧ t.wbByte 0 = 0x78#8) ∧
    State.wbByte { atDone with wb := bufferOf [0] } 0 = 0x00#8 :=
  ⟨next_of_seen (f := fun t => t.wbByte 0) (by decide), by decide⟩

theorem witness_JobRegisterWriters :
    (∃ t, exec (.hwr 0x0010 8) atDone = .next t ∧ t.hashlen = 8#32) ∧ (∃ t, exec (.hwr 0x0014 5) atDone = .next t ∧ t.msglen = 5#32) ∧
    (∃ t, exec (.hwr 0x0018 1) atDone = .next t ∧ t.entropyLo = 1#32) ∧ (∃ t, exec (.hwr 0x001C 2) atDone = .next t ∧ t.entropyHi = 2#32) ∧
    (∃ t, exec (.hwr 0x0020 3) atDone = .next t ∧ t.iv0 = 3#32) ∧ (∃ t, exec (.hwr 0x0024 4) atDone = .next t ∧ t.iv1 = 4#32) ∧
    (∃ t, exec (.hwr 0x0028 5) atDone = .next t ∧ t.iv2 = 5#32) ∧ ∃ t, exec (.hwr 0x002C 6) atDone = .next t ∧ t.iv3 = 6#32 :=
  ⟨⟨_, rfl, rfl⟩, ⟨_, rfl, rfl⟩, ⟨_, rfl, rfl⟩, ⟨_, rfl, rfl⟩, ⟨_, rfl, rfl⟩, ⟨_, rfl, rfl⟩, ⟨_, rfl, rfl⟩, ⟨_, rfl, rfl⟩⟩

theorem witness_FrameOfEachInstruction :
    (∃ t, exec (.hwr 0x1000 7) atDone = .next t ∧ t.wbWord 0 = 7#32) ∧ (∃ t, exec (.start .resumeMode) atDone = .next t ∧ t.phase = .init) ∧
    (∃ t, exec .initD (inInit .defaultMode) = .next t ∧ t.k = 0#64) ∧ (∃ t, exec (.step .resumeMode) inLoop = .next t ∧ t.k = 4#64) ∧
    ∃ t, exec (.fold .defaultMode) inLoop = .next t ∧ t.phase = .fin :=
  ⟨next_of_seen (f := fun t => t.wbWord 0) (by decide), next_of_seen (f := State.phase) (by decide),
    next_of_seen (f := State.k) (by decide), next_of_seen (f := State.k) (by decide), next_of_seen (f := State.phase) (by decide)⟩

theorem witness_LoopIsALeftFold :
    inLoop.Inv ∧ inLoop.turns = [] ∧ inLoop.phase = .loop ∧ (inLoop.c.toNat - inLoop.k.toNat) / 4 = 1 :=
  ⟨inLoop_inv, rfl, rfl, by decide⟩

theorem witness_JobReachesDone :
    ((inInit .defaultMode).Inv ∧ (inInit .defaultMode).turns = [] ∧ (inInit .defaultMode).phase = .init ∧
      (inInit .defaultMode).jobSteps = 3) ∧
    (inLoop.Inv ∧ inLoop.phase = .loop ∧ ∃ t, exec (.step .defaultMode) inLoop = .next t ∧ t.k = 4#64) :=
  ⟨⟨inInit_inv _, rfl, rfl, by decide⟩, inLoop_inv, rfl, next_of_seen (f := State.k) (by decide)⟩

theorem witness_JobComputesTheDigest :
    (∀ m, (inInit m).Inv ∧ (inInit m).turns = [] ∧ (inInit m).phase = .init) ∧ hlm (inInit .resumeMode).hashlen.toNat ≤ 4 :=
  ⟨fun m => ⟨inInit_inv m, rfl, rfl⟩, by decide⟩

/-- Lane 1 is there where the digest is longer than a word. -/
theorem witness_JobComputesTheDigest_lane (h : 16 ≤ Config.wbBytes) :
    State.Inv { inInit .defaultMode with hashlen := 8#32 } ∧ (8#32).toNat / 4 ≤ 2 ∧ 2 < hlm (8#32).toNat / 4 :=
  ⟨⟨⟨rfl, rfl, rfl⟩, ⟨Nat.zero_le 3, fun _ => rfl⟩, fun _ => ⟨jobLength_eight h, rfl⟩, trivial⟩, by decide, by decide⟩

end Sys2Proof.Machine
end

section
/-! PROOFS. The fields of `STATUS` (10_state.md R28, R31) and the invariants of a job (R45). What is carried along a run is
`State.JobInv`: every step keeps it, and R45 is read off it. -/

namespace Sys2Proof.Machine

/-! ## `BUSY`, `DONE` and `STATUS` -/

theorem State.busy_iff (s : State) :
    s.busy = true ↔ s.phase = .init ∨ s.phase = .loop ∨ s.phase = .fold ∨ s.phase = .fin := by
  unfold State.busy
  cases s.phase <;> simp

theorem State.done_iff (s : State) : s.done = true ↔ s.phase = .done := by
  unfold State.done
  cases s.phase <;> simp

theorem State.not_busy_and_done (s : State) : ¬ (s.busy = true ∧ s.done = true) := by
  rintro ⟨hb, hd⟩
  rw [s.done_iff] at hd
  simp [s.busy_iff, hd] at hb

/-- `STATUS` bit by bit: the views of `PHASE` in bits 0 and 1, `ERR` in bits 8 to 11, zeros elsewhere. -/
theorem State.statusWord_getLsbD (s : State) (j : Nat) : s.statusWord.getLsbD j =
    if j = 0 then s.busy else if j = 1 then s.done else if 8 ≤ j ∧ j < 12 then s.err.getLsbD (j - 8) else false := by
  change BitVec.getLsbD (w := 20 + 4 + 6 + 1 + 1)
    ((((0#20 ++ s.err) ++ 0#6) ++ BitVec.ofBool s.done) ++ BitVec.ofBool s.busy) j = _
  rw [BitVec.getLsbD_append, BitVec.getLsbD_append, BitVec.getLsbD_append, BitVec.getLsbD_append]
  match j with
  | 0 => simp
  | 1 => simp
  | k + 2 =>
    by_cases hk : k < 6
    · simp [hk, show ¬ 6 ≤ k by omega]
    · simp [hk, show 6 ≤ k by omega, show k - 6 < 4 ↔ k + 2 < 12 by omega]

/-! ## Transactions -/

theorem exec_hrd_held (off : BitVec 16) (s : State) (h : s.holdsRead off = true) : exec (.hrd off) s = .next s :=
  if_pos h

/-- A read of `STATUS` is performed in every phase. -/
theorem exec_hrd_status (s : State) : exec (.hrd 0x0004#16) s = .next (s.answer s.statusWord).retire := by
  simp [exec, execHrd, holdsRead_free, State.hostRead, hostTarget_status]

/-- A read of `ERRINFO` is performed in every phase. -/
theorem exec_hrd_errinfo (s : State) : exec (.hrd 0x0008#16) s = .next (s.answer s.errinfo).retire := by
  simp [exec, execHrd, holdsRead_free, State.hostRead, hostTarget_errinfo]

/-- A write to `STATUS` is dropped. -/
theorem exec_hwr_status (data : Word) (s : State) (hb : s.busy = false) :
    exec (.hwr 0x0004#16 data) s = .next s.retire := by
  rw [exec_hwr_eq, if_neg (by simp [hb]), hwrEffect, hostTarget_status]

/-- Settles O24: the bits of `STATUS`, and the two transactions that reach it. -/
theorem statusWordLayout : Obligations.StatusWordLayout := fun s =>
  ⟨s.statusWord_getLsbD, s.busy_iff, s.done_iff, s.not_busy_and_done, exec_hrd_status s,
    fun data hb => exec_hwr_status data s hb⟩

/-- While a job runs, a transaction of the host changes at most the word it reads and the port (43_host_interface.md R121). -/
theorem exec_host_busy (i : Instr) (s t : State) (hi : s.hostInstr = some i) (hb : s.busy = true)
    (h : exec i s = .next t) : t = { s with hrdata := t.hrdata, port := t.port } := by
  obtain ⟨off, rfl⟩ | ⟨off, data, rfl⟩ := hostInstr_bus s i hi
  · by_cases h4 : off = 0x0004#16
    · subst h4
      rw [exec_hrd_status] at h
      cases h
      rfl
    by_cases h8 : off = 0x0008#16
    · subst h8
      rw [exec_hrd_errinfo] at h
      cases h
      rfl
    · rw [exec_hrd_held off s (holdsRead_held s off hb h4 h8)] at h
      cases h
      rfl
  · obtain ⟨-, rfl⟩ | ⟨hf, -⟩ := exec_hwr_cases off data s t h
    · rfl
    · simp [hb] at hf

/-- A read leaves `PHASE` as it is. -/
theorem exec_hrd_phase (off : BitVec 16) (s t : State) (h : exec (.hrd off) s = .next t) : t.phase = s.phase := by
  obtain ⟨-, rfl⟩ | ⟨v, -, rfl⟩ | ⟨-, rfl⟩ := exec_hrd_cases off s t h <;> simp

/-- START leaves `PHASE` as it is, or begins a job of an accepted length with no error recorded (43_host_interface.md R125). -/
theorem startJob_phase (m : Mode) (s : State) :
    (s.startJob m).phase = s.phase ∨
    ((s.startJob m).phase = .init ∧ jobLength (s.startJob m).hashlen.toNat = true ∧ (s.startJob m).err = 0#4) := by
  obtain ⟨-, e⟩ | ⟨herr, hlen, e⟩ | ⟨-, -, e⟩ := startJob_cases s m <;> rw [e]
  · exact .inl rfl
  · exact .inr ⟨rfl, hlen, herr⟩
  · exact .inl rfl

/-- A performed write leaves `PHASE` as it is, unless it is a START that begins a job. -/
theorem hwrEffect_phase (off : BitVec 16) (data : Word) (s : State) :
    (hwrEffect off data s).phase = s.phase ∨
    ((hwrEffect off data s).phase = .init ∧ jobLength (hwrEffect off data s).hashlen.toNat = true ∧
      (hwrEffect off data s).err = 0#4) := by
  unfold hwrEffect
  cases hostTarget off with
  | cmd =>
    cases decodeCommand data with
    | error e => simp
    | ok i =>
      cases i with
      | start m => exact startJob_phase m s
      | _ => simp
  | _ => simp

/-! ## The invariant of a job -/

/-- `State.Inv` without what it says of the memories and of a recorded error: this part is kept by itself. -/
def State.JobInv (s : State) : Prop := s.jobOk ∧ s.phaseOk

/-- While no job runs there is nothing to keep. -/
theorem State.jobInv_of_rest (s : State) (hb : s.busy = false) : s.JobInv := by
  refine ⟨fun h => by simp [hb] at h, ?_⟩
  unfold State.busy at hb
  unfold State.phaseOk
  split <;> simp_all

/-- A job that is about to be initialised. -/
theorem State.jobInv_of_init (s : State) (hp : s.phase = .init) (hlen : jobLength s.hashlen.toNat = true)
    (herr : s.err = 0#4) : s.JobInv :=
  ⟨fun _ => ⟨hlen, herr⟩, by simp [State.phaseOk, hp]⟩

theorem State.phaseOk_loop (s : State) (hp : s.phase = .loop) : s.phaseOk ↔
    s.c = BitVec.ofNat 64 (padLen s.msglen.toNat s.hashlen.toNat) ∧ s.lb = s.padByte ∧
    s.k.toNat % 4 = 0 ∧ s.k.toNat < s.c.toNat ∧ s.hpos.toNat = s.k.toNat % hlm s.hashlen.toNat := by
  simp [State.phaseOk, hp]

theorem State.phaseOk_fold (s : State) (hp : s.phase = .fold) : s.phaseOk ↔
    s.c = BitVec.ofNat 64 (padLen s.msglen.toNat s.hashlen.toNat) ∧ s.lb = s.padByte ∧
    s.k = s.c ∧ s.hpos = 0#16 ∧ 4 < s.hashlen.toNat := by
  simp [State.phaseOk, hp]

theorem State.phaseOk_fin (s : State) (hp : s.phase = .fin) : s.phaseOk ↔
    s.c = BitVec.ofNat 64 (padLen s.msglen.toNat s.hashlen.toNat) ∧ s.lb = s.padByte ∧ s.k = s.c ∧ s.hpos = 0#16 := by
  simp [State.phaseOk, hp]

theorem digestLength_of_jobLength (h : Nat) (hj : jobLength h = true) : digestLength h = true :=
  (digestLength_iff h).2 ((jobLength_iff h).1 hj).1

/-- `HLM` of an accepted digest length (R45 (a)). -/
theorem hlm_of_jobLength (h : Nat) (hj : jobLength h = true) :
    0 < hlm h ∧ hlm h % 4 = 0 ∧ h ≤ hlm h ∧ hlm h ≤ Config.wbBytes := by
  obtain ⟨h4, hle, hpos, -, -⟩ := hlm_spec h (digestLength_of_jobLength h hj)
  exact ⟨by omega, h4, hle, ((jobLength_iff h).1 hj).2⟩

/-- What `C` holds during a job: a positive multiple of `HLM(HASHLEN)` and of 4 that leaves `K` room to count up to it. -/
theorem State.toNat_c_spec (s : State) (hj : jobLength s.hashlen.toNat = true)
    (hc : s.c = BitVec.ofNat 64 (padLen s.msglen.toNat s.hashlen.toNat)) :
    s.c.toNat % hlm s.hashlen.toNat = 0 ∧ s.c.toNat % 4 = 0 ∧ 0 < s.c.toNat ∧ s.c.toNat < 2 ^ 33 := by
  have hlt := padLen_lt s.msglen.toNat s.hashlen.toNat s.msglen.isLt hj
  have hexact : s.c.toNat = padLen s.msglen.toNat s.hashlen.toNat := by
    rw [hc, BitVec.toNat_ofNat]
    exact Nat.mod_eq_of_lt (by omega)
  have hd := digestLength_of_jobLength _ hj
  obtain ⟨hlen, -⟩ := (digestLength_iff _).1 hd
  obtain ⟨hm, h4, hge, -⟩ := padLen_spec s.msglen.toNat s.hashlen.toNat hd
  rw [hexact]
  exact ⟨hm, h4, by omega, hlt⟩

/-- A remainder by a multiple of 4 advances by 4 and wraps at it. -/
theorem add_four_mod (k m : Nat) (hm : 0 < m) (hm4 : m % 4 = 0) (hk4 : k % 4 = 0) :
    (k + 4) % m = if k % m + 4 = m then 0 else k % m + 4 := by
  have hlt : k % m < m := Nat.mod_lt k hm
  have h4 : k % m % 4 = 0 := by rw [Nat.mod_mod_of_dvd k (Nat.dvd_of_mod_eq_zero hm4), hk4]
  rw [← Nat.mod_add_mod]
  split
  next he => rw [he, Nat.mod_self]
  next hne => exact Nat.mod_eq_of_lt (by omega)

/-- The Cursor keeps up with `K` (R45 (d), 41_update_loop.md R102 line 10). -/
theorem State.toNat_nextHpos (s : State) (hj : jobLength s.hashlen.toNat = true) (hk4 : s.k.toNat % 4 = 0)
    (hpos : s.hpos.toNat = s.k.toNat % hlm s.hashlen.toNat) :
    s.nextHpos.toNat = (s.k.toNat + 4) % hlm s.hashlen.toNat := by
  obtain ⟨hm, hm4, -, hw⟩ := hlm_of_jobLength _ hj
  have hwb := wbBytes_bounds
  have hlt : s.hpos.toNat < hlm s.hashlen.toNat := hpos ▸ Nat.mod_lt _ hm
  have hadd : (s.hpos + 4#16).toNat = s.hpos.toNat + 4 := by
    rw [BitVec.toNat_add, BitVec.toNat_ofNat]
    omega
  rw [add_four_mod _ _ hm hm4 hk4, ← hpos, State.nextHpos, hadd]
  split
  · rfl
  · exact hadd

/-! ## Each micro-operation keeps it -/

theorem State.jobInv_beginLoop (s : State) (seed lcg : DWord) (hj : jobLength s.hashlen.toNat = true)
    (herr : s.err = 0#4) : (s.beginLoop seed lcg).JobInv := by
  refine ⟨fun _ => ⟨hj, herr⟩, (State.phaseOk_loop _ rfl).2 ⟨rfl, rfl, rfl, ?_, ?_⟩⟩
  · obtain ⟨-, -, hc, -⟩ := State.toNat_c_spec (s.beginLoop seed lcg) hj rfl
    exact hc
  · exact (Nat.zero_mod _).symm

theorem State.jobInv_updateStep (s : State) (hs : s.JobInv) (hp : s.phase = .loop) : s.updateStep.JobInv := by
  obtain ⟨hjob, hph⟩ := hs
  obtain ⟨hj, herr⟩ := hjob (by simp [s.busy_iff, hp])
  obtain ⟨hc, hlb, hk4, hlt, hpos⟩ := (s.phaseOk_loop hp).1 hph
  obtain ⟨hcm, hc4, -, hcb⟩ := s.toNat_c_spec hj hc
  have hk : (s.k + 4#64).toNat = s.k.toNat + 4 := by
    rw [BitVec.toNat_add, BitVec.toNat_ofNat]
    omega
  have hnext := s.toNat_nextHpos hj hk4 hpos
  refine ⟨fun _ => ⟨hj, herr⟩, ?_⟩
  by_cases hlast : s.k + 4#64 = s.c
  · have hzero : s.nextHpos = 0#16 := by
      apply BitVec.eq_of_toNat_eq
      rw [hnext, ← hk, hlast, hcm]
      rfl
    by_cases hfold : s.hashlen.toNat < hlm s.hashlen.toNat
    · obtain ⟨-, -, -, -, hlanes⟩ := hlm_spec _ (digestLength_of_jobLength _ hj)
      have h4 : 4 < s.hashlen.toNat := hlanes.1 hfold
      exact (State.phaseOk_fold _ (by simp [State.nextPhase, hlast, hfold])).2 ⟨hc, hlb, hlast, hzero, h4⟩
    · exact (State.phaseOk_fin _ (by simp [State.nextPhase, hlast, hfold])).2 ⟨hc, hlb, hlast, hzero⟩
  · have hne : s.k.toNat + 4 ≠ s.c.toNat := fun e => hlast (BitVec.eq_of_toNat_eq (hk.trans e))
    refine (State.phaseOk_loop _ (by simp [State.nextPhase, hlast, hp])).2 ⟨hc, hlb, ?_, ?_, ?_⟩
    · rw [State.updateStep_k, hk]
      omega
    · rw [State.updateStep_k, State.updateStep_c, hk]
      omega
    · rw [State.updateStep_hpos, State.updateStep_k, State.updateStep_hashlen, hk, hnext]

theorem State.jobInv_foldResult (s : State) (wb : Memory) (hs : s.JobInv) (hp : s.phase = .fold) :
    State.JobInv { s with wb := wb, phase := .fin } := by
  obtain ⟨hjob, hph⟩ := hs
  obtain ⟨hc, hlb, hk, hpos, -⟩ := (s.phaseOk_fold hp).1 hph
  exact ⟨fun _ => hjob (by simp [s.busy_iff, hp]), hc, hlb, hk, hpos⟩

theorem exec_engine_keeps_jobInv (i : Instr) (s t : State) (hi : s.engineInstr = some i) (hs : s.JobInv)
    (h : exec i s = .next t) : t.JobInv := by
  rw [engineInstr_eq] at hi
  cases hp : s.phase <;> rw [hp] at hi <;> cases hi
  case init =>
    obtain ⟨hj, herr⟩ := hs.1 (by simp [s.busy_iff, hp])
    cases hm : s.mode <;> rw [hm] at h
    · obtain ⟨-, rfl⟩ := exec_initD_cases s t h
      exact State.jobInv_beginLoop _ _ _ hj herr
    · obtain rfl := exec_initR_cases s t h
      exact State.jobInv_beginLoop _ _ _ hj herr
  case loop =>
    obtain ⟨-, rfl⟩ := exec_step_cases _ s t h
    exact s.jobInv_updateStep hs hp
  case fold =>
    obtain ⟨-, rfl⟩ := exec_fold_cases _ s t h
    exact s.jobInv_foldResult _ hs hp
  case fin =>
    obtain rfl := exec_fin_cases _ s t h
    exact State.jobInv_of_rest _ rfl

/-! ## Every step keeps it -/

theorem exec_host_keeps_jobInv (i : Instr) (s t : State) (hi : s.hostInstr = some i) (hs : s.JobInv)
    (h : exec i s = .next t) : t.JobInv := by
  cases hb : s.busy with
  | true =>
    rw [exec_host_busy i s t hi hb h]
    exact hs
  | false =>
    have rest : ∀ u : State, u.phase = s.phase → u.JobInv := fun u hu =>
      u.jobInv_of_rest (by rw [State.busy, hu, ← State.busy, hb])
    obtain ⟨off, rfl⟩ | ⟨off, data, rfl⟩ := hostInstr_bus s i hi
    · exact rest t (exec_hrd_phase off s t h)
    · obtain ⟨hb', -⟩ | ⟨-, rfl⟩ := exec_hwr_cases off data s t h
      · simp [hb] at hb'
      · obtain hp | ⟨hp, hj, herr⟩ := hwrEffect_phase off data s
        · exact rest _ hp
        · exact State.jobInv_of_init _ hp hj herr

/-- Placing a message keeps the invariant: it has no effect during a job. -/
theorem State.jobInv_placeMessage (s : State) (bytes : List Byte) (hs : s.JobInv) : (s.placeMessage bytes).JobInv := by
  unfold State.placeMessage
  cases hb : s.busy with
  | true => exact hs
  | false => exact State.jobInv_of_rest _ hb

theorem step_keeps_jobInv (s t : State) (hs : s.JobInv) (h : step s = .next t) : t.JobInv := by
  have hs' : ∀ ts, State.JobInv { s with turns := ts } := fun _ => hs
  obtain ⟨i, ts, hi, hx⟩ | ⟨i, ts, hi, hx⟩ | ⟨ts, rfl⟩ | ⟨ts, -, rfl⟩ | ⟨bytes, ts, -, rfl⟩ := step_cases s t h
  · exact exec_engine_keeps_jobInv i { s with turns := ts } t hi (hs' ts) hx
  · exact exec_host_keeps_jobInv i { s with turns := ts } t hi (hs' ts) hx
  · exact hs' ts
  · exact State.jobInv_of_rest _ rfl
  · exact State.jobInv_placeMessage _ bytes (hs' ts)

theorem jobInv_of_reachable (msg : Memory) (port : List BusWord) (turns : List Turn) (n : Nat) (t : State)
    (h : runSteps n (State.powerOn msg port turns) = .next t) : t.JobInv :=
  runSteps_keeps State.JobInv step_keeps_jobInv n _ t (State.jobInv_of_rest _ rfl) h

/-! ## R45 -/

/-- R45 (e): in FOLD and FIN the loop is over. -/
theorem State.JobInv.loop_over {s : State} (hs : s.JobInv) (hp : s.phase = .fold ∨ s.phase = .fin) :
    s.c = BitVec.ofNat 64 (padLen s.msglen.toNat s.hashlen.toNat) ∧ s.k = s.c ∧ s.hpos = 0#16 := by
  obtain ⟨-, hph⟩ := hs
  obtain hp | hp := hp
  · obtain ⟨hc, -, hk, hpos, -⟩ := (s.phaseOk_fold hp).1 hph
    exact ⟨hc, hk, hpos⟩
  · obtain ⟨hc, -, hk, hpos⟩ := (s.phaseOk_fin hp).1 hph
    exact ⟨hc, hk, hpos⟩

/-- R45 (c) and (d), where the Cursor is `K mod HLM(HASHLEN)` in FOLD and FIN too: there `K = C`, a multiple of it. -/
theorem State.JobInv.counters {s : State} (hs : s.JobInv) (hj : jobLength s.hashlen.toNat = true)
    (hp : s.phase = .loop ∨ s.phase = .fold ∨ s.phase = .fin) :
    s.k.toNat % 4 = 0 ∧ s.c.toNat % 4 = 0 ∧ s.k.toNat ≤ s.c.toNat ∧ (s.phase = .loop → s.k.toNat < s.c.toNat) ∧
    s.hpos.toNat = s.k.toNat % hlm s.hashlen.toNat := by
  obtain hp | hp := hp
  · obtain ⟨hc, -, hk4, hlt, hpos⟩ := (s.phaseOk_loop hp).1 hs.2
    obtain ⟨-, hc4, -, -⟩ := s.toNat_c_spec hj hc
    exact ⟨hk4, hc4, hlt.le, fun _ => hlt, hpos⟩
  · obtain ⟨hc, hk, hpos⟩ := hs.loop_over hp
    obtain ⟨hcm, hc4, -, -⟩ := s.toNat_c_spec hj hc
    refine ⟨hk ▸ hc4, hc4, hk ▸ le_refl _, fun hl => ?_, ?_⟩
    · simp [hl] at hp
    · rw [hk, hcm, hpos]
      rfl

/-- Settles O14: a run from reset keeps `State.JobInv`, from which the five clauses of R45 follow. -/
theorem reachableStatesMeetTheInvariants : Obligations.ReachableStatesMeetTheInvariants := by
  intro msg port turns n t _ hrun hp
  have hs := jobInv_of_reachable msg port turns n t hrun
  obtain ⟨hj, -⟩ := hs.1 (t.busy_iff.2 (.inr hp))
  obtain ⟨hm, hm4, hge, hw⟩ := hlm_of_jobLength _ hj
  obtain ⟨hk4, hc4, hle, hlt, hpos⟩ := hs.counters hj hp
  have hpos4 : t.hpos.toNat % 4 = 0 := by
    rw [hpos, Nat.mod_mod_of_dvd _ (Nat.dvd_of_mod_eq_zero hm4), hk4]
  refine ⟨⟨hm, hm4, hge, hw⟩, ⟨hpos4, hpos ▸ Nat.mod_lt _ hm⟩, ⟨hk4, hc4, hle⟩, fun hl => ⟨hpos, hlt hl⟩, fun hf => ?_⟩
  obtain ⟨-, hk, hz⟩ := hs.loop_over hf
  exact ⟨hk, hz⟩

end Sys2Proof.Machine
end

section
/-! PROOFS. The bytes of the state vector (10_state.md R37) and the two 64-bit values read from it (20_memory.md R54). -/

namespace Sys2Proof.Machine

/-! ## Bytes of a pair of words -/

theorem extractLsb'_byte_append (hi lo : Word) {b : Nat} (hb : b < 8) :
    (hi ++ lo).extractLsb' (8 * b) 8 =
      if b < 4 then lo.extractLsb' (8 * (b % 4)) 8 else hi.extractLsb' (8 * (b % 4)) 8 := by
  split
  next h =>
    rw [BitVec.extractLsb'_append_eq_of_add_le (by omega), Nat.mod_eq_of_lt h]
  next h =>
    have hmod : 8 * b - 32 = 8 * (b % 4) := by omega
    rw [BitVec.extractLsb'_append_eq_of_le (by omega), hmod]

/-! ## Bytes of the state vector -/

theorem State.ivByte_of_lt_eight (s : State) {b : Nat} (hb : b < 8) :
    s.ivByte b = if b < 4 then s.iv0.extractLsb' (8 * (b % 4)) 8 else s.iv1.extractLsb' (8 * (b % 4)) 8 := by
  split
  next h =>
    have hdiv : b / 4 = 0 := by omega
    simp only [State.ivByte, hdiv]
  next h =>
    have hdiv : b / 4 = 1 := by omega
    simp only [State.ivByte, hdiv]

theorem State.ivByte_eight_add (s : State) {b : Nat} (hb : b < 8) :
    s.ivByte (8 + b) = if b < 4 then s.iv2.extractLsb' (8 * (b % 4)) 8 else s.iv3.extractLsb' (8 * (b % 4)) 8 := by
  have hmod : (8 + b) % 4 = b % 4 := by omega
  split
  next h =>
    have hdiv : (8 + b) / 4 = 2 := by omega
    simp only [State.ivByte, hdiv, hmod]
  next h =>
    have hdiv : (8 + b) / 4 = 3 := by omega
    simp only [State.ivByte, hdiv, hmod]

/-! ## R54 -/

/-- Settles O25: a byte of a pair and the byte of the state vector of the same number come from the same register. -/
theorem stateVectorHalves : Obligations.StateVectorHalves := fun s =>
  ⟨fun _ hb =>
    ⟨(extractLsb'_byte_append s.iv1 s.iv0 hb).trans (s.ivByte_of_lt_eight hb).symm,
      (extractLsb'_byte_append s.iv3 s.iv2 hb).trans (s.ivByte_eight_add hb).symm⟩,
    rfl, rfl⟩

end Sys2Proof.Machine
end

section
/-! PROOFS. The encodings (30_encoding.md R71 to R77): the four legal command words, the selector's micro-operations, and the
rows of the opcode table. -/

namespace Sys2Proof

/-! ## Command words (R71) -/

/-- A command word is its fields `Z`, `M` and `OP`. -/
theorem commandWord_eq_fields (cw : Word) :
    cw = (cw.extractLsb' 5 27 ++ cw.extractLsb' 4 1) ++ cw.extractLsb' 0 4 := by
  rw [BitVec.extractLsb'_append_extractLsb'_eq_extractLsb' (show 5 = 4 + 1 from rfl),
    BitVec.extractLsb'_append_extractLsb'_eq_extractLsb' (show 4 = 0 + 4 from rfl)]
  exact BitVec.extractLsb'_eq_self.symm

theorem extractLsb'_one_eq_ofBool {n : Nat} (x : BitVec n) (i : Nat) :
    x.extractLsb' i 1 = BitVec.ofBool (x.getLsbD i) := by
  ext j hj
  obtain rfl : j = 0 := by omega
  simp

/-- R71: the fields are legal exactly in the four words. -/
theorem commandFields_legal_iff (cw : Word) :
    (cw.extractLsb' 5 27 = 0#27 ∧ (cw.extractLsb' 0 4).toNat ≤ 2 ∧ (cw.extractLsb' 0 4 = 1#4 ∨ cw.getLsbD 4 = false)) ↔
      cw = 0x00000000#32 ∨ cw = 0x00000001#32 ∨ cw = 0x00000011#32 ∨ cw = 0x00000002#32 := by
  constructor
  · rintro ⟨hz, hop, hm⟩
    have hcw := commandWord_eq_fields cw
    rw [extractLsb'_one_eq_ofBool, hz] at hcw
    have hop' : cw.extractLsb' 0 4 = 0#4 ∨ cw.extractLsb' 0 4 = 1#4 ∨ cw.extractLsb' 0 4 = 2#4 := by bv_omega
    obtain h | h | h := hop' <;> rw [h] at hcw hm
    · rw [hm.resolve_left (by decide)] at hcw
      exact .inl hcw
    · cases hb : cw.getLsbD 4 <;> rw [hb] at hcw
      · exact .inr (.inl hcw)
      · exact .inr (.inr (.inl hcw))
    · rw [hm.resolve_left (by decide)] at hcw
      exact .inr (.inr (.inr hcw))
  · rintro (rfl | rfl | rfl | rfl) <;> decide

/-- R78: a word whose fields are not legal is refused. -/
theorem decodeCommand_of_illegal (cw : Word)
    (h : ¬ (cw.extractLsb' 5 27 = 0#27 ∧ (cw.extractLsb' 0 4).toNat ≤ 2 ∧
      (cw.extractLsb' 0 4 = 1#4 ∨ cw.getLsbD 4 = false))) :
    decodeCommand cw = .error (.illegalCommand cw) := by
  unfold decodeCommand
  split
  · rfl
  next hz =>
    rw [not_not] at hz
    split
    next hop hm => exact absurd ⟨hz, by omega, .inr hm⟩ h
    next hop => exact absurd ⟨hz, by omega, .inl (BitVec.eq_of_toNat_eq hop)⟩ h
    next hop hm => exact absurd ⟨hz, by omega, .inr hm⟩ h
    · rfl

theorem decodeCommand_eq (cw : Word) : decodeCommand cw =
    if cw = 0x00000000#32 then .ok .nop
    else if cw = 0x00000001#32 then .ok (.start .defaultMode)
    else if cw = 0x00000011#32 then .ok (.start .resumeMode)
    else if cw = 0x00000002#32 then .ok .clrerr
    else .error (.illegalCommand cw) := by
  split_ifs with h0 h1 h17 h2
  · rw [h0]; rfl
  · rw [h1]; rfl
  · rw [h17]; rfl
  · rw [h2]; rfl
  · apply decodeCommand_of_illegal
    rw [commandFields_legal_iff]
    simp only [h0, h1, h17, h2, or_self, not_false_eq_true]

/-- Settles O2: the fields say which four words are legal, and the decoder reads the same fields. -/
theorem commandWordsDecode : Obligations.CommandWordsDecode := fun cw =>
  ⟨commandFields_legal_iff cw, decodeCommand_eq cw⟩

/-! ## Selectors (R76) -/

/-- The `PHASE` of a selector is what the mask `0111` leaves of it. -/
theorem selectorPhase_toNat (sel : BitVec 4) : (sel.extractLsb' 0 3).toNat = (sel &&& 0b0111#4).toNat := by
  rw [BitVec.extractLsb'_toNat, BitVec.toNat_and]
  exact (Nat.and_two_pow_sub_one_eq_mod sel.toNat 3).symm

theorem decodeSelector_step (sel : BitVec 4) (h : sel &&& 0b0111#4 = 0b0010#4) :
    decodeSelector sel = .ok (.step (modeOfBit (sel.getLsbD 3))) := by
  rw [decodeSelector, selectorPhase_toNat, h]; rfl

theorem decodeSelector_fold (sel : BitVec 4) (h : sel &&& 0b0111#4 = 0b0011#4) :
    decodeSelector sel = .ok (.fold (modeOfBit (sel.getLsbD 3))) := by
  rw [decodeSelector, selectorPhase_toNat, h]; rfl

theorem decodeSelector_fin (sel : BitVec 4) (h : sel &&& 0b0111#4 = 0b0100#4) :
    decodeSelector sel = .ok (.fin (modeOfBit (sel.getLsbD 3))) := by
  rw [decodeSelector, selectorPhase_toNat, h]; rfl

theorem decodeSelector_atRest (sel : BitVec 4) (h : sel &&& 0b0111#4 = 0#4 ∨ sel &&& 0b0111#4 = 5#4) :
    decodeSelector sel = .error (.engineAtRest sel) := by
  rw [decodeSelector, selectorPhase_toNat]
  obtain h | h := h <;> rw [h] <;> rfl

/-- Settles O4: a clause per row of R76, and the engine's selector as the model makes it. -/
theorem selectorPicksTheMicroOperation : Obligations.SelectorPicksTheMicroOperation :=
  ⟨fun sel => ⟨fun h => h ▸ rfl, fun h => h ▸ rfl, decodeSelector_step sel, decodeSelector_fold sel,
    decodeSelector_fin sel, decodeSelector_atRest sel⟩, fun _ => ⟨rfl, rfl⟩⟩

/-! ## The opcode table (R75 to R77) -/

theorem OpcodeRow.matchesWord_iff (r : OpcodeRow) (w : CodeWord) :
    r.matchesWord w = true ↔ w.format = r.format ∧ w.tableBits &&& r.mask = r.pattern := by
  simp [OpcodeRow.matchesWord]

theorem encode_matchesWord (i : Instr) : (opcodeRow i).matchesWord (encode i) = true := by
  cases i with
  | hrd off => exact Laws.EncodingRow.hrd off
  | hwr off data => exact Laws.EncodingRow.hwr off data
  | nop => exact Laws.EncodingRow.nop
  | start m => exact Laws.EncodingRow.start m
  | clrerr => exact Laws.EncodingRow.clrerr
  | initD => exact Laws.EncodingRow.initD
  | initR => exact Laws.EncodingRow.initR
  | step m => exact Laws.EncodingRow.step m
  | fold m => exact Laws.EncodingRow.fold m
  | fin m => exact Laws.EncodingRow.fin m

theorem header_eq_append (h : BitVec 17) : h = BitVec.ofBool (h.getLsbD 16) ++ h.extractLsb' 0 16 := by
  rw [← extractLsb'_one_eq_ofBool, BitVec.extractLsb'_append_extractLsb'_eq_extractLsb' (show 16 = 0 + 16 from rfl)]
  exact BitVec.extractLsb'_eq_self.symm

/-- The word that encodes a transaction has its header; the data of a read is not encoded (R72). -/
theorem encode_decodeBus (w : BusWord) : ∃ data, encode (decodeBus w) = .bus ⟨w.header, data⟩ := by
  have hw := header_eq_append w.header
  unfold decodeBus
  split
  next hb =>
    rw [hb] at hw
    exact ⟨w.data, congrArg (fun h => CodeWord.bus ⟨h, w.data⟩) hw.symm⟩
  next hb =>
    rw [Bool.eq_false_iff.2 hb] at hw
    exact ⟨0#32, congrArg (fun h => CodeWord.bus ⟨h, 0#32⟩) hw.symm⟩

theorem encode_of_decodeCommand (cw : Word) (i : Instr) (h : decodeCommand cw = .ok i) : encode i = .command cw := by
  rw [decodeCommand_eq] at h
  split_ifs at h <;> cases h <;> subst cw <;> rfl

theorem encode_of_decodeSelector (sel : BitVec 4) (i : Instr) (h : decodeSelector sel = .ok i) :
    encode i = .selector sel := by
  have hall : ∀ sel : BitVec 4, ∀ i ∈ (decodeSelector sel).toOption, encode i = .selector sel := by decide
  exact hall sel i (by simp [h, Except.toOption])

/-- A word selects the row of the operation it decodes to: they share the bits that the table looks at. -/
theorem matchesWord_of_decode (w : CodeWord) (i : Instr) (h : decode w = .ok i) : (opcodeRow i).matchesWord w = true := by
  have hrow := encode_matchesWord i
  cases w with
  | bus b =>
    cases h
    obtain ⟨data, he⟩ := encode_decodeBus b
    rwa [he] at hrow
  | command cw => rwa [encode_of_decodeCommand cw i h] at hrow
  | selector sel => rwa [encode_of_decodeSelector sel i h] at hrow

/-- A table's mask and match, given as numbers, taken to the width of the field. -/
theorem and_ofNat_eq_ofNat {n : Nat} {x : BitVec n} {mask pattern : Nat} (h : x.toNat &&& mask = pattern) :
    x &&& BitVec.ofNat n mask = BitVec.ofNat n pattern := by
  rw [← h, BitVec.ofNat_and, BitVec.ofNat_toNat, BitVec.setWidth_eq]

/-- START's row leaves `M` free (R75). -/
theorem command_of_startRow (cw : Word) (h : cw &&& 0xFFFFFFEF#32 = 1#32) : cw = 0x00000001#32 ∨ cw = 0x00000011#32 := by
  have hcw : cw = (cw &&& 0xFFFFFFEF#32) ||| (cw &&& BitVec.twoPow 32 4) := by
    rw [← BitVec.and_or_distrib_left]
    exact BitVec.and_allOnes.symm
  rw [h, BitVec.and_twoPow] at hcw
  split at hcw
  · exact .inr hcw
  · exact .inl hcw

theorem decodeBus_of_row (b : BusWord) (i : Instr) (hf : (opcodeRow i).format = .bus)
    (hb : b.header.toNat &&& (opcodeRow i).mask = (opcodeRow i).pattern) : opcodeRow (decodeBus b) = opcodeRow i := by
  have hwe : b.header.toNat &&& 0x10000 = (b.header.getLsbD 16).toNat * 0x10000 := Nat.and_two_pow _ 16
  cases i with
  | hrd off =>
    rw [show b.header.toNat &&& 0x10000 = 0 from hb] at hwe
    cases hw : b.header.getLsbD 16 with
    | false => simp only [decodeBus, hw]; rfl
    | true => exact absurd (hw ▸ hwe) (by decide)
  | hwr off data =>
    rw [show b.header.toNat &&& 0x10000 = 0x10000 from hb] at hwe
    cases hw : b.header.getLsbD 16 with
    | false => exact absurd (hw ▸ hwe) (by decide)
    | true => simp only [decodeBus, hw]; rfl
  | _ => cases hf

theorem decodeCommand_of_row (cw : Word) (i : Instr) (hf : (opcodeRow i).format = .command)
    (hb : cw.toNat &&& (opcodeRow i).mask = (opcodeRow i).pattern) :
    ∃ j, decodeCommand cw = .ok j ∧ opcodeRow j = opcodeRow i := by
  have hbits := and_ofNat_eq_ofNat hb
  cases i with
  | nop =>
    obtain rfl : cw = 0x00000000#32 := BitVec.and_allOnes.symm.trans hbits
    exact ⟨.nop, rfl, rfl⟩
  | start m =>
    obtain rfl | rfl := command_of_startRow cw hbits
    · exact ⟨.start .defaultMode, rfl, rfl⟩
    · exact ⟨.start .resumeMode, rfl, rfl⟩
  | clrerr =>
    obtain rfl : cw = 0x00000002#32 := BitVec.and_allOnes.symm.trans hbits
    exact ⟨.clrerr, rfl, rfl⟩
  | _ => cases hf

theorem decodeSelector_of_row (sel : BitVec 4) (i : Instr) (hf : (opcodeRow i).format = .selector)
    (hb : sel.toNat &&& (opcodeRow i).mask = (opcodeRow i).pattern) :
    ∃ j, decodeSelector sel = .ok j ∧ opcodeRow j = opcodeRow i := by
  have hbits := and_ofNat_eq_ofNat hb
  cases i with
  | initD =>
    obtain rfl : sel = 0b0001#4 := BitVec.and_allOnes.symm.trans hbits
    exact ⟨.initD, rfl, rfl⟩
  | initR =>
    obtain rfl : sel = 0b1001#4 := BitVec.and_allOnes.symm.trans hbits
    exact ⟨.initR, rfl, rfl⟩
  | step m => exact ⟨_, decodeSelector_step sel hbits, rfl⟩
  | fold m => exact ⟨_, decodeSelector_fold sel hbits, rfl⟩
  | fin m => exact ⟨_, decodeSelector_fin sel hbits, rfl⟩
  | _ => cases hf

/-- A word that selects a row decodes to an operation of that row. -/
theorem decode_of_matchesWord (w : CodeWord) (i : Instr) (h : (opcodeRow i).matchesWord w = true) :
    ∃ j, decode w = .ok j ∧ opcodeRow j = opcodeRow i := by
  obtain ⟨hf, hb⟩ := ((opcodeRow i).matchesWord_iff w).1 h
  cases w with
  | bus b => exact ⟨decodeBus b, rfl, decodeBus_of_row b i hf.symm hb⟩
  | command cw => exact decodeCommand_of_row cw i hf.symm hb
  | selector sel => exact decodeSelector_of_row sel i hf.symm hb

/-- Settles O3: one direction goes through the word that encodes the operation, the other through the rows. -/
theorem decodeFollowsTheOpcodeTable : Obligations.DecodeFollowsTheOpcodeTable := fun w =>
  ⟨matchesWord_of_decode w, decode_of_matchesWord w⟩

end Sys2Proof
end

section
/-! PROOFS. The padding controller (40_init_padding.md R91, R92) and the two initialisations (R95, R96). -/

namespace Sys2Proof.Machine

/-! ## The padding controller -/

theorem State.padByte_of_empty (s : State) (h : s.msglen = 0#32) : s.padByte = 0xFF#8 := if_pos h

theorem State.padByte_of_nonempty (s : State) (h : 0 < s.msglen.toNat) :
    s.padByte = ~~~ s.msgByte (s.msglen.toNat - 1) := by
  have hne : s.msglen ≠ 0#32 := by bv_omega
  exact if_neg hne

/-- Settles O35: the pad byte is a complement, so it differs in every bit. -/
theorem padByteComplementsTheLastByte : Obligations.PadByteComplementsTheLastByte := by
  refine fun s => ⟨s.padByte_of_empty, fun hlen => ⟨s.padByte_of_nonempty hlen, fun b hb => ?_⟩⟩
  rw [s.padByte_of_nonempty hlen, BitVec.getLsbD_not]
  simp [hb]

/-- R12's formula is the least multiple not below: a lower multiple would be a whole `m` below it. -/
theorem rup_isLeast (x m : Nat) (hm : 0 < m) : IsLeast {n | m ∣ n ∧ x ≤ n} (rup x m) := by
  obtain ⟨hmod, hle, hlt⟩ := rup_spec x m hm
  have hdvd : m ∣ rup x m := Nat.dvd_of_mod_eq_zero hmod
  refine ⟨⟨hdvd, hle⟩, fun n ⟨hn, hxn⟩ => ?_⟩
  exact Nat.le_of_lt_add_of_dvd (by omega) hdvd hn

theorem padLen_eq_rup (l h : Nat) (hd : digestLength h = true) : padLen l h = rup (rup l 4 + h) (hlm h) := if_pos hd

/-- Settles O36: the given least multiple is `rup l 4`, and `padLen` rounds up from there. -/
theorem paddedLengthIsLeast : Obligations.PaddedLengthIsLeast := by
  intro l h a h4 hmod ha
  have hd : digestLength h = true := (digestLength_iff h).2 ⟨h4, hmod⟩
  obtain ⟨-, -, hpos, -⟩ := hlm_spec h hd
  obtain rfl : a = rup l 4 := ha.unique (rup_isLeast l 4 (by omega))
  rw [padLen_eq_rup l h hd]
  exact rup_isLeast _ _ (by omega)

/-! ## The two initialisations -/

/-- INIT.D where the zero-fill is inside the buffer. -/
theorem exec_initD_of_wbHolds (s : State) (h : wbHolds (hlm s.hashlen.toNat / 4) = true) :
    exec .initD s = .next (State.beginLoop (Config.cSeed ^^^ s.entropy) Config.cLcg
      { s with wb := zeroFill (hlm s.hashlen.toNat / 4) s.wb }) :=
  if_pos h

/-- Settles O28: the registers are those of `State.beginLoop`; `WB` is the zero-fill, word by word and byte by byte. -/
theorem initDResult : Obligations.InitDResult := by
  refine fun s => ⟨fun hp hm => ?_, fun hfit => ?_⟩
  · rw [engineInstr_eq, hp, hm]
  · refine ⟨_, exec_initD_of_wbHolds s (decide_eq_true hfit), rfl, fun i hi => ?_, fun a ha => ?_⟩
    · exact (wbWordOf_zeroFill ..).trans (if_pos hi)
    · have hpast : ¬ a / 4 < hlm s.hashlen.toNat / 4 := by omega
      exact (wbByteOf_zeroFill ..).trans (if_neg hpast)

/-- Settles O29: INIT.R is `State.beginLoop` on the halves of the state vector, in every state. -/
theorem initRResult : Obligations.InitRResult := by
  refine fun s => ⟨fun hp hm => ?_, rfl⟩
  rw [engineInstr_eq, hp, hm]

end Sys2Proof.Machine
end

section
/-! PROOFS. The message word (41_update_loop.md R100), STEP (R102), and the number of engine steps of a job (R106). What is
carried along a job is `State.Countdown`: every engine step takes one from the steps still to come. -/

namespace Sys2Proof.Machine

/-! ## The message word -/

theorem State.paddedByte_of_lt (s : State) (x : Nat) (h : x < s.msglen.toNat) : s.paddedByte x = s.msgByte x := if_pos h

theorem State.paddedByte_of_ge (s : State) (x : Nat) (h : s.msglen.toNat ≤ x) : s.paddedByte x = s.lb := if_neg h.not_gt

/-- Settles O34: in each range of `MSGLEN` against `k`, which of the four bytes are literal and which are pad bytes. -/
theorem messageWordCases : Obligations.MessageWordCases := by
  refine fun s k => ⟨fun h => ?_, fun h => ?_, fun h => ?_, fun h => ?_, fun h => ?_⟩
  all_goals simp (disch := omega) only [State.msgWord, State.paddedByte_of_lt, State.paddedByte_of_ge]

/-! ## STEP -/

/-- Line 8 of R102 and its function form: an exclusive or with 32-bit values leaves the upper half as it was. -/
theorem xor_setWidth_eq_append (x : DWord) (a b : Word) :
    x ^^^ a.setWidth 64 ^^^ b.setWidth 64 = x.extractLsb' 32 32 ++ (x.extractLsb' 0 32 ^^^ a ^^^ b) := by
  apply BitVec.eq_of_getLsbD_eq
  intro i hi
  change _ = BitVec.getLsbD (x.extractLsb' 32 32 ++ (x.extractLsb' 0 32 ^^^ a ^^^ b)) i
  rw [BitVec.getLsbD_append]
  by_cases hlow : i < 32
  · simp [hlow, hi]
  · simp [hlow, hi, show i - 32 < 32 by omega, show 32 + (i - 32) = i by omega, BitVec.getLsbD_of_ge _ i (not_lt.1 hlow)]

theorem exec_step_of_wbHolds (m : Mode) (s : State) (h : wbHolds (s.hpos.toNat / 4 + 1) = true) :
    exec (.step m) s = .next s.updateStep :=
  if_pos h

/-- Settles O30: the registers are those of `State.updateStep`, `SEED` in the second form of the rule; `WB` is one word write. -/
theorem stepResult : Obligations.StepResult := by
  refine fun s m => ⟨fun hp => ?_, fun hfit => ?_⟩
  · rw [engineInstr_eq, hp]
  · intro s1 ph hl
    refine ⟨_, exec_step_of_wbHolds m s (decide_eq_true (by omega)), ?_, ?_, fun a ha => ?_⟩
    · exact congrArg (fun seed => { s.updateStep with seed := seed }) (xor_setWidth_eq_append s1 ph hl)
    · exact wbWordOf_putWbWord_self ..
    · have hout : ¬ a / 4 = s.hpos.toNat / 4 := by omega
      exact (wbByteOf_putWbWord ..).trans (if_neg hout)

/-! ## The counters of the loop -/

/-- `C` holds the padded length of an accepted job whole. -/
theorem toNat_padLen_of_jobLength (l : Word) (h : Nat) (hj : jobLength h = true) :
    (BitVec.ofNat 64 (padLen l.toNat h)).toNat = padLen l.toNat h := by
  have hlt := padLen_lt l.toNat h l.isLt hj
  rw [BitVec.toNat_ofNat]
  exact Nat.mod_eq_of_lt (by omega)

theorem State.JobInv.jobLength_of_loop {s : State} (hs : s.JobInv) (hp : s.phase = .loop) :
    jobLength s.hashlen.toNat = true :=
  (hs.1 (s.busy_iff.2 (.inr (.inl hp)))).1

/-- R106: in the loop `C - K` is a positive multiple of 4, and STEP advances `K` without a wrap and takes 4 from it. -/
theorem State.JobInv.loop_counters {s : State} (hs : s.JobInv) (hp : s.phase = .loop) :
    (s.c.toNat - s.k.toNat) % 4 = 0 ∧ s.k.toNat < s.c.toNat ∧ (s.k + 4#64).toNat = s.k.toNat + 4 ∧
    s.c.toNat - (s.k + 4#64).toNat + 4 = s.c.toNat - s.k.toNat := by
  have hj := hs.jobLength_of_loop hp
  obtain ⟨hc, -, hk4, hlt, -⟩ := (s.phaseOk_loop hp).1 hs.2
  obtain ⟨-, hc4, -, hcb⟩ := s.toNat_c_spec hj hc
  have hk : (s.k + 4#64).toNat = s.k.toNat + 4 := by
    rw [BitVec.toNat_add, BitVec.toNat_ofNat]
    omega
  exact ⟨by omega, hlt, hk, by omega⟩

/-! ## Every micro-operation of a job completes -/

theorem State.JobInv.wbHolds_cursor {s : State} (hs : s.JobInv) (hp : s.phase = .loop) :
    wbHolds (s.hpos.toNat / 4 + 1) = true := by
  have hj := hs.jobLength_of_loop hp
  obtain ⟨hm, hm4, -, hw⟩ := hlm_of_jobLength _ hj
  obtain ⟨-, -, -, -, hpos⟩ := hs.counters hj (.inl hp)
  have hlt : s.hpos.toNat < hlm s.hashlen.toNat := hpos ▸ Nat.mod_lt _ hm
  exact decide_eq_true (by omega)

theorem State.JobInv.wbHolds_lanes {s : State} (hs : s.JobInv) (hp : s.phase = .fold) :
    wbHolds (2 * (s.hashlen.toNat / 4)) = true := by
  obtain ⟨hj, -⟩ := hs.1 (s.busy_iff.2 (.inr (.inr (.inl hp))))
  obtain ⟨-, -, -, -, hlong⟩ := (s.phaseOk_fold hp).1 hs.2
  obtain ⟨-, hw⟩ := (jobLength_iff _).1 hj
  rw [hlm, if_neg hlong.ne'] at hw
  exact decide_eq_true (by omega)

theorem exec_fold_of_wbHolds (m : Mode) (s : State) (h : wbHolds (2 * (s.hashlen.toNat / 4)) = true) :
    exec (.fold m) s = .next
      { s with wb := foldLanes s.wbGen (s.hashlen.toNat / 4) (s.hashlen.toNat / 4) s.wb, phase := .fin } :=
  if_pos h

/-! ## The engine steps still to come -/

/-- The engine steps that a job still has to make (R106), phase by phase. -/
def State.stepsToGo (s : State) : Nat :=
  match s.phase with
  | .idle | .done => 0
  | .init => s.jobSteps
  | .loop => (s.c.toNat - s.k.toNat) / 4 + (if 4 < s.hashlen.toNat then 1 else 0) + 1
  | .fold => 2
  | .fin => 1

theorem State.stepsToGo_init (s : State) (hp : s.phase = .init) : s.stepsToGo = s.jobSteps := by
  simp [State.stepsToGo, hp]

theorem State.stepsToGo_loop (s : State) (hp : s.phase = .loop) :
    s.stepsToGo = (s.c.toNat - s.k.toNat) / 4 + (if 4 < s.hashlen.toNat then 1 else 0) + 1 := by
  simp [State.stepsToGo, hp]

theorem State.stepsToGo_fold (s : State) (hp : s.phase = .fold) : s.stepsToGo = 2 := by
  simp [State.stepsToGo, hp]

theorem State.stepsToGo_fin (s : State) (hp : s.phase = .fin) : s.stepsToGo = 1 := by
  simp [State.stepsToGo, hp]

theorem State.stepsToGo_eq_zero_iff (s : State) : s.stepsToGo = 0 ↔ s.busy = false := by
  unfold State.stepsToGo State.busy
  cases s.phase <;> simp [State.jobSteps]

/-- A job that is left to itself, `n` engine steps before `DONE`. -/
structure State.Countdown (n : Nat) (s : State) : Prop where
  inv : s.JobInv
  turns : s.turns = []
  started : s.phase ≠ .idle
  toGo : s.stepsToGo = n

theorem State.Countdown.phase_of_zero {s : State} (h : s.Countdown 0) : s.phase = .done := by
  have hrest : ¬ s.busy = true := by simp [s.stepsToGo_eq_zero_iff.1 h.toGo]
  have hidle := h.started
  rw [s.busy_iff] at hrest
  cases hp : s.phase <;> simp [hp] at hrest hidle ⊢

theorem State.Countdown.busy_of_succ {s : State} {n : Nat} (h : s.Countdown (n + 1)) : s.busy = true := by
  by_contra hb
  have hzero := s.stepsToGo_eq_zero_iff.2 (Bool.eq_false_of_not_eq_true hb)
  rw [h.toGo] at hzero
  exact Nat.succ_ne_zero n hzero

theorem State.stepsToGo_beginLoop (s : State) (seed lcg : DWord) (hp : s.phase = .init)
    (hj : jobLength s.hashlen.toNat = true) : s.stepsToGo = (s.beginLoop seed lcg).stepsToGo + 1 := by
  have hc : (s.beginLoop seed lcg).c.toNat = padLen s.msglen.toNat s.hashlen.toNat :=
    toNat_padLen_of_jobLength s.msglen _ hj
  have hgo : (s.beginLoop seed lcg).stepsToGo =
      ((s.beginLoop seed lcg).c.toNat - 0) / 4 + (if 4 < s.hashlen.toNat then 1 else 0) + 1 :=
    State.stepsToGo_loop _ rfl
  rw [s.stepsToGo_init hp, State.jobSteps, hgo, hc]
  omega

/-- The last STEP is followed by FOLD exactly for a digest of more than one word. -/
theorem State.stepsToGo_updateStep (s : State) (hs : s.JobInv) (hp : s.phase = .loop) :
    s.stepsToGo = s.updateStep.stepsToGo + 1 ∧ s.updateStep.phase ≠ .idle := by
  have hj := hs.jobLength_of_loop hp
  obtain ⟨-, -, -, -, hlanes⟩ := hlm_spec _ (digestLength_of_jobLength _ hj)
  obtain ⟨hmod, hlt, hk, hdown⟩ := hs.loop_counters hp
  by_cases hlast : s.k + 4#64 = s.c
  · have hone : (s.c.toNat - s.k.toNat) / 4 = 1 := by
      rw [← hlast, hk]
      omega
    by_cases hlong : 4 < s.hashlen.toNat
    · have hnext : s.nextPhase = .fold := by simp [State.nextPhase, hlast, hlanes, hlong]
      have hgo := s.updateStep.stepsToGo_fold hnext
      simp [s.stepsToGo_loop hp, hgo, hnext, hone, hlong]
    · have hnext : s.nextPhase = .fin := by simp [State.nextPhase, hlast, hlanes, hlong]
      have hgo := s.updateStep.stepsToGo_fin hnext
      simp [s.stepsToGo_loop hp, hgo, hnext, hone, hlong]
  · have hnext : s.nextPhase = .loop := by simp [State.nextPhase, hlast, hp]
    have hgo : s.updateStep.stepsToGo =
        (s.c.toNat - (s.k + 4#64).toNat) / 4 + (if 4 < s.hashlen.toNat then 1 else 0) + 1 :=
      State.stepsToGo_loop _ hnext
    refine ⟨?_, by simp [hnext]⟩
    rw [s.stepsToGo_loop hp, hgo]
    omega

/-- In INIT, LOOP, FOLD and FIN the engine has a micro-operation, which completes and takes one from the steps to go. -/
theorem State.JobInv.exec_engine {s : State} (hs : s.JobInv) (hb : s.busy = true) :
    ∃ i t, s.engineInstr = some i ∧ exec i s = .next t ∧ t.turns = s.turns ∧ t.phase ≠ .idle ∧
      s.stepsToGo = t.stepsToGo + 1 := by
  obtain ⟨hj, -⟩ := hs.1 hb
  rw [engineInstr_eq]
  obtain hp | hp | hp | hp := s.busy_iff.1 hb <;> rw [hp]
  · cases hm : s.mode with
    | defaultMode =>
      have hfit : wbHolds (hlm s.hashlen.toNat / 4) = true := by
        obtain ⟨-, -, -, hw⟩ := hlm_of_jobLength _ hj
        exact decide_eq_true (by omega)
      have hgo := State.stepsToGo_beginLoop { s with wb := zeroFill (hlm s.hashlen.toNat / 4) s.wb }
        (Config.cSeed ^^^ s.entropy) Config.cLcg hp hj
      exact ⟨_, _, rfl, exec_initD_of_wbHolds s hfit, rfl, by simp, hgo⟩
    | resumeMode => exact ⟨_, _, rfl, rfl, rfl, by simp, s.stepsToGo_beginLoop _ _ hp hj⟩
  · obtain ⟨hgo, hidle⟩ := s.stepsToGo_updateStep hs hp
    exact ⟨_, _, rfl, exec_step_of_wbHolds _ s (hs.wbHolds_cursor hp), rfl, hidle, hgo⟩
  · exact ⟨_, _, rfl, exec_fold_of_wbHolds _ s (hs.wbHolds_lanes hp), rfl, by simp, s.stepsToGo_fold hp⟩
  · exact ⟨_, _, rfl, rfl, rfl, by simp, s.stepsToGo_fin hp⟩

theorem State.Countdown.exists_step {s : State} {n : Nat} (h : s.Countdown (n + 1)) :
    ∃ t, step s = .next t ∧ t.Countdown n := by
  obtain ⟨i, t, hi, hx, hturns, hidle, hgo⟩ := h.inv.exec_engine h.busy_of_succ
  have hstep : step s = .next t := (step_engine s i h.turns hi).trans hx
  have hn : t.stepsToGo = n := by
    have := h.toGo
    omega
  exact ⟨t, hstep, step_keeps_jobInv s t h.inv hstep, hturns.trans h.turns, hidle, hn⟩

theorem State.Countdown.exists_runSteps {s : State} {n : Nat} (m : Nat) (h : s.Countdown (m + n)) :
    ∃ t, runSteps m s = .next t ∧ t.Countdown n := by
  induction m generalizing s with
  | zero => exact ⟨s, rfl, Nat.zero_add n ▸ h⟩
  | succ m ih =>
    rw [Nat.succ_add] at h
    obtain ⟨u, hstep, hu⟩ := h.exists_step
    rw [runSteps_succ m s u hstep]
    exact ih hu

/-- Settles O49: a job in INIT is `State.jobSteps` before `DONE`, and `State.Countdown` follows it step by step. -/
theorem jobReachesDone : Obligations.JobReachesDone := by
  refine ⟨fun s ⟨_, _, hjob, hph⟩ hturns hp => ?_, fun s t m ⟨_, _, hjob, hph⟩ hp hx => ?_⟩
  · have start : s.Countdown s.jobSteps := ⟨⟨hjob, hph⟩, hturns, by simp [hp], s.stepsToGo_init hp⟩
    refine ⟨fun n hn => ?_, ?_⟩
    · obtain ⟨d, hd⟩ : ∃ d, s.jobSteps = n + (d + 1) := ⟨s.jobSteps - n - 1, by omega⟩
      obtain ⟨u, hrun, hu⟩ := State.Countdown.exists_runSteps n (hd ▸ start)
      exact ⟨u, hrun, hu.busy_of_succ⟩
    · obtain ⟨t, hrun, ht⟩ := State.Countdown.exists_runSteps (n := 0) s.jobSteps start
      exact ⟨t, hrun, ht.phase_of_zero⟩
  · obtain ⟨-, rfl⟩ := exec_step_cases m s t hx
    obtain ⟨hmod, -, -, hdown⟩ := State.JobInv.loop_counters ⟨hjob, hph⟩ hp
    exact ⟨hmod, hdown⟩

end Sys2Proof.Machine
end

section
/-! PROOFS. FOLD (42_fold_finalize.md R110) and FIN (R112). -/

namespace Sys2Proof.Machine

/-- Settles O31: the turns of FOLD's loop write lane 0 alone, each word once; lane 1 is there as the loop left it. -/
theorem foldResult : Obligations.FoldResult := by
  refine fun s m => ⟨fun hp => ?_, fun hfit => ?_⟩
  · rw [engineInstr_eq, hp]
  · refine ⟨_, exec_fold_of_wbHolds m s (decide_eq_true hfit), rfl, fun i hi => ?_, fun a ha => ?_⟩
    · exact wbWordOf_foldLanes_lt _ _ _ s.wb i le_rfl hi
    · have hpast : s.hashlen.toNat / 4 ≤ a / 4 := by omega
      exact wbByteOf_foldLanes _ _ _ s.wb a hpast

/-- Settles O32: FIN completes in every state, and the two flags are read off the phase it writes. -/
theorem finResult : Obligations.FinResult := by
  refine fun s m => ⟨fun hp => ?_, { s with phase := .done }, rfl, rfl, rfl, rfl⟩
  rw [engineInstr_eq, hp]

end Sys2Proof.Machine
end

section
/-! PROOFS. The host interface (43_host_interface.md R122 to R126): HRD and HWR at every offset, and the three commands. An
offset reaches one target, and each transaction is read off it. -/

namespace Sys2Proof.Machine

/-! ## Error entry -/

/-- Error entry, field by field (60_exceptions.md R143). -/
theorem State.raiseError_eq (s : State) (code : ErrCode) (info : Word) : s.raiseError code info =
    { s with
      err := if s.err = 0#4 then code.bits else s.err
      errinfo := if s.err = 0#4 then info else s.errinfo } := by
  obtain ⟨h, e⟩ | ⟨h, e⟩ := raiseError_cases s code info <;> simp [e, h]

theorem addrInfo_read (off : BitVec 16) : addrInfo 0#1 off = off.setWidth 32 :=
  (BitVec.setWidth_eq_append (show 16 ≤ 32 by decide)).symm

theorem addrInfo_write (off : BitVec 16) : addrInfo 1#1 off = 0x80000000#32 ||| off.setWidth 32 := rfl

/-! ## The targets that are a range of offsets -/

theorem hostTarget_of_toNat_eq_window (off : BitVec 16) (i : Nat) (hi : 4 * i < Config.wbBytes)
    (hoff : off.toNat = 0x1000 + 4 * i) : hostTarget off = .window i := by
  rw [← hostTarget_of_window i hi, ← hoff, BitVec.ofNat_toNat, BitVec.setWidth_eq]

theorem State.hostRead_window (s : State) (off : BitVec 16) (i : Nat) (h : hostTarget off = .window i) :
    s.hostRead off = some (s.wbWord i) := by
  rw [State.hostRead, h]

theorem State.hostRead_nothing (s : State) (off : BitVec 16) (h : hostTarget off = .nothing) :
    s.hostRead off = none := by
  rw [State.hostRead, h]

theorem hwrEffect_window (off : BitVec 16) (data : Word) (s : State) (i : Nat) (h : hostTarget off = .window i) :
    hwrEffect off data s = { s with wb := putWbWord s.wb i data } := by
  rw [hwrEffect, h]

theorem hwrEffect_nothing (off : BitVec 16) (data : Word) (s : State) (h : hostTarget off = .nothing) :
    hwrEffect off data s = s.raiseError .addr (addrInfo 1#1 off) := by
  rw [hwrEffect, h]

/-! ## HRD (R122) -/

theorem exec_hrd_answers (off : BitVec 16) (s : State) (v : Word) (hfree : s.holdsRead off = false)
    (hv : s.hostRead off = some v) : exec (.hrd off) s = .next { s with hrdata := v, port := s.port.tail } := by
  simp only [exec, execHrd, hfree, hv]
  rfl

theorem exec_hrd_raises (off : BitVec 16) (s : State) (hfree : s.holdsRead off = false) (hv : s.hostRead off = none) :
    exec (.hrd off) s = .next ((s.raiseError .addr (addrInfo 0#1 off)).answer 0#32).retire := by
  simp only [exec, execHrd, hfree, hv]
  rfl

/-- Settles O16: a read that is not held answers by the target of its offset, or raises where there is none. -/
theorem hrdAnswersOrRaises : Obligations.HrdAnswersOrRaises := by
  refine fun s off => ⟨fun hb h4 h8 => exec_hrd_held off s (holdsRead_held s off hb h4 h8), fun hfree => ?_⟩
  have hfree := holdsRead_free s off hfree
  refine ⟨fun v hv => exec_hrd_answers off s v hfree ?_, fun hoff => ?_⟩
  · obtain ⟨rfl, rfl⟩ | ⟨rfl, rfl⟩ | ⟨rfl, rfl⟩ | ⟨rfl, rfl⟩ | ⟨rfl, rfl⟩ | ⟨rfl, rfl⟩ | ⟨rfl, rfl⟩ | ⟨rfl, rfl⟩ |
      ⟨rfl, rfl⟩ | ⟨rfl, rfl⟩ | ⟨rfl, rfl⟩ | ⟨i, hi, hoff, rfl⟩ := hv
    on_goal 12 => exact s.hostRead_window off i (hostTarget_of_toNat_eq_window off i hi hoff)
    all_goals rfl
  · have hnone := s.hostRead_nothing off (hostTarget_nothing off hoff)
    rw [exec_hrd_raises off s hfree hnone, State.raiseError_eq, addrInfo_read]
    rfl

/-! ## HWR (R123) -/

theorem exec_hwr_held (off : BitVec 16) (data : Word) (s : State) (hb : s.busy = true) :
    exec (.hwr off data) s = .next s := by
  rw [exec_hwr_eq, if_pos hb]

theorem exec_hwr_free (off : BitVec 16) (data : Word) (s : State) (hb : s.busy = false) :
    exec (.hwr off data) s = .next (hwrEffect off data s).retire := by
  rw [exec_hwr_eq, if_neg (by simp [hb])]

/-- A command word is performed as the operation it decodes to. -/
theorem execCommandWord_of_decodes (data : Word) (s : State) (i : Instr) (hi : decodeCommand data = .ok i) :
    execCommandWord data s = exec i s := by
  obtain ⟨hd, e⟩ | ⟨m, hd, e⟩ | ⟨hd, e⟩ | ⟨x, hd, e⟩ := execCommandWord_cases data s <;> cases hd.symm.trans hi <;> exact e

theorem execCommandWord_of_illegal (data : Word) (s : State) (x : DecodeError) (hx : decodeCommand data = .error x) :
    execCommandWord data s = s.performWrite (State.raiseError .cmd data) := by
  rw [execCommandWord, hx]

theorem exec_hwr_cmd (data : Word) (s : State) : exec (.hwr 0x0000#16 data) s = execCommandWord data s := rfl

/-- Settles O17: a write that is not held performs the effect of its offset's target, which at `CMD` is the command word's. -/
theorem hwrWritesOrRaises : Obligations.HwrWritesOrRaises := by
  refine fun s off data => ⟨exec_hwr_held off data s, fun hb => ?_⟩
  refine ⟨?cmd, ?readOnly, ?_, ?_, ?_, ?_, ?_, ?_, ?_, ?_, ?window, ?nothing⟩
  case cmd =>
    rintro rfl
    refine ⟨execCommandWord_of_decodes data s, fun x hx => ?_⟩
    rw [exec_hwr_cmd, execCommandWord_of_illegal data s x hx, performWrite_free s _ hb, State.raiseError_eq]
    rfl
  case readOnly => rintro (rfl | rfl) <;> exact exec_hwr_free _ data s hb
  case window =>
    intro i hi hoff
    rw [exec_hwr_free off data s hb, hwrEffect_window off data s i (hostTarget_of_toNat_eq_window off i hi hoff)]
    refine ⟨_, rfl, rfl, wbWordOf_putWbWord_self .., fun a ha => ?_⟩
    have hout : ¬ a / 4 = i := by omega
    exact (wbByteOf_putWbWord ..).trans (if_neg hout)
  case nothing =>
    intro hoff
    rw [exec_hwr_free off data s hb, hwrEffect_nothing off data s (hostTarget_nothing off hoff), State.raiseError_eq,
      addrInfo_write]
    rfl
  all_goals
    rintro rfl
    exact exec_hwr_free _ data s hb

/-! ## The commands (R124 to R126) -/

/-- Settles O19: NOP is a write without an effect. -/
theorem nopChangesNothing : Obligations.NopChangesNothing := fun s =>
  ⟨performWrite_held s id, performWrite_free s id⟩

/-- Settles O21: CLRERR is a write whose effect is the return from an error. -/
theorem clrerrClearsTheError : Obligations.ClrerrClearsTheError := fun s =>
  ⟨performWrite_held s State.clearError, performWrite_free s State.clearError⟩

theorem exec_start_free (m : Mode) (s : State) (hb : s.busy = false) :
    exec (.start m) s = .next (s.startJob m).retire := performWrite_free s _ hb

/-- A digest length that START refuses: not a digest length, or one that does not fit the Working Buffer. -/
theorem jobLength_eq_false_iff (h : Nat) :
    jobLength h = false ↔ h < 4 ∨ h % 4 ≠ 0 ∨ Config.wbBytes < hlm h := by
  rw [← Bool.not_eq_true, jobLength_iff]
  omega

/-- Settles O20: START is a write whose effect, `State.startJob`, turns on `ERR` and on the digest length. -/
theorem startBeginsIgnoresOrRefuses : Obligations.StartBeginsIgnoresOrRefuses := by
  refine fun s m => ⟨performWrite_held s (State.startJob m), fun hb => ?_⟩
  rw [exec_start_free m s hb]
  obtain ⟨herr, e⟩ | ⟨herr, hlen, e⟩ | ⟨herr, hlen, e⟩ := startJob_cases s m <;> rw [e]
  · exact ⟨fun _ => rfl, fun h => absurd h herr, fun h => absurd h herr⟩
  · rw [jobLength_iff] at hlen
    exact ⟨fun h => absurd herr h, fun _ _ => by omega, fun _ _ _ _ => rfl⟩
  · rw [jobLength_eq_false_iff] at hlen
    exact ⟨fun h => absurd herr h, fun _ _ => rfl, fun _ _ _ _ => by omega⟩

end Sys2Proof.Machine
end

section
/-! PROOFS. Error entry (60_exceptions.md R142, R144): an effect that changes `ERR` to a code records one error, and an operation
that performs such an effect is HRD, HWR or START. -/

namespace Sys2Proof.Machine

/-! ## Effects that record an error -/

/-- `t` is `s` with its first error recorded (R143). -/
def State.Records (s : State) (code : ErrCode) (info : Word) (t : State) : Prop :=
  s.err = 0#4 ∧ t = { s with err := code.bits, errinfo := info }

theorem State.raiseError_records (s : State) (code : ErrCode) (info : Word)
    (h : (s.raiseError code info).err ≠ s.err) : s.Records code info (s.raiseError code info) := by
  obtain hfirst | ⟨-, hkept⟩ := raiseError_cases s code info
  · exact hfirst
  · exact absurd (congrArg State.err hkept) h

/-- START records only the digest length that it refuses. -/
theorem State.startJob_records (s : State) (m : Mode) (h : (s.startJob m).err ≠ s.err) :
    s.Records .hashLen s.hashlen (s.startJob m) := by
  obtain ⟨-, e⟩ | ⟨-, -, e⟩ | ⟨herr, -, e⟩ := startJob_cases s m
  · exact absurd (congrArg State.err e) h
  · exact absurd (congrArg State.err e) h
  · exact ⟨herr, e⟩

theorem eq_zero_of_hostTarget_cmd (off : BitVec 16) (h : hostTarget off = .cmd) : off = 0x0000#16 := by
  obtain ⟨hoff, -⟩ | ⟨-, e⟩ | ⟨-, e⟩ | ⟨-, e⟩ | ⟨-, e⟩ | ⟨-, e⟩ | ⟨-, e⟩ | ⟨-, e⟩ | ⟨-, e⟩ | ⟨-, e⟩ | ⟨-, e⟩ |
    ⟨_, -, -, e⟩ | ⟨-, e⟩ := hostTarget_cases off
  · exact hoff
  all_goals cases e.symm.trans h

/-- A write to `CMD` records an illegal command word, or the digest length that START refuses. -/
theorem hwrEffect_cmd_records (data : Word) (s : State) (h : (hwrEffect 0x0000#16 data s).err ≠ s.err)
    (hcode : (hwrEffect 0x0000#16 data s).err ≠ 0#4) :
    s.Records .cmd data (hwrEffect 0x0000#16 data s) ∨ s.Records .hashLen s.hashlen (hwrEffect 0x0000#16 data s) := by
  rw [hwrEffect, hostTarget_cmd] at h hcode ⊢
  cases hd : decodeCommand data with
  | error x =>
    simp only [hd] at h
    exact .inl (s.raiseError_records .cmd data h)
  | ok i =>
    simp only [hd] at h hcode
    cases i with
    | nop => exact absurd rfl h
    | start m => exact .inr (s.startJob_records m h)
    | clrerr => exact absurd rfl hcode
    | _ => exact .inl (s.raiseError_records .cmd data h)

/-- A write past `CMD` records only an offset that reaches nothing. -/
theorem hwrEffect_records_of_ne_cmd (off : BitVec 16) (data : Word) (s : State) (hoff : off ≠ 0x0000#16)
    (h : (hwrEffect off data s).err ≠ s.err) : s.Records .addr (addrInfo 1#1 off) (hwrEffect off data s) := by
  unfold hwrEffect at h ⊢
  cases ht : hostTarget off with
  | cmd => exact absurd (eq_zero_of_hostTarget_cmd off ht) hoff
  | nothing =>
    simp only [ht] at h
    exact s.raiseError_records .addr _ h
  | _ =>
    simp only [ht] at h
    exact absurd rfl h

/-! ## Operations that record an error -/

theorem exec_hrd_records (off : BitVec 16) (s t : State) (h : exec (.hrd off) s = .next t) (herr : t.err ≠ s.err) :
    ∃ u, s.Records .addr (addrInfo 0#1 off) u ∧ t = (u.answer 0#32).retire := by
  obtain ⟨-, rfl⟩ | ⟨v, -, rfl⟩ | ⟨-, rfl⟩ := exec_hrd_cases off s t h
  · exact absurd rfl herr
  · exact absurd rfl herr
  · exact ⟨_, s.raiseError_records _ _ herr, rfl⟩

theorem exec_hwr_records (off : BitVec 16) (data : Word) (s t : State) (h : exec (.hwr off data) s = .next t)
    (herr : t.err ≠ s.err) (hcode : t.err ≠ 0#4) :
    ∃ u, t = u.retire ∧
      ((off ≠ 0x0000#16 ∧ s.Records .addr (addrInfo 1#1 off) u) ∨ (off = 0x0000#16 ∧ s.Records .cmd data u) ∨
        (off = 0x0000#16 ∧ s.Records .hashLen s.hashlen u)) := by
  obtain ⟨-, rfl⟩ | ⟨-, rfl⟩ := exec_hwr_cases off data s t h
  · exact absurd rfl herr
  · refine ⟨_, rfl, ?_⟩
    by_cases hoff : off = 0x0000#16
    · subst hoff
      exact .inr ((hwrEffect_cmd_records data s herr hcode).imp (.intro rfl) (.intro rfl))
    · exact .inl ⟨hoff, hwrEffect_records_of_ne_cmd off data s hoff herr⟩

theorem exec_start_records (m : Mode) (s t : State) (h : exec (.start m) s = .next t) (herr : t.err ≠ s.err) :
    ∃ u, s.Records .hashLen s.hashlen u ∧ t = u.retire := by
  obtain ⟨-, rfl⟩ | ⟨-, rfl⟩ := exec_start_cases m s t h
  · exact absurd rfl herr
  · exact ⟨_, s.startJob_records m herr, rfl⟩

/-- Settles O23: each operation either leaves `ERR`, or ends in the state that records its error. -/
theorem raisedErrorsAreRecorded : Obligations.RaisedErrorsAreRecorded := by
  intro i s t h herr hcode
  cases i with
  | hrd off =>
    obtain ⟨u, ⟨hnone, rfl⟩, rfl⟩ := exec_hrd_records off s t h herr
    exact ⟨hnone, rfl, rfl, rfl, rfl⟩
  | hwr off data =>
    obtain ⟨u, rfl, ⟨hoff, hnone, rfl⟩ | ⟨hoff, hnone, rfl⟩ | ⟨hoff, hnone, rfl⟩⟩ :=
      exec_hwr_records off data s t h herr hcode
    · exact ⟨hnone, rfl, rfl, .inl ⟨rfl, hoff, rfl⟩⟩
    · exact ⟨hnone, rfl, rfl, .inr (.inl ⟨rfl, hoff, rfl⟩)⟩
    · exact ⟨hnone, rfl, rfl, .inr (.inr ⟨rfl, hoff, rfl⟩)⟩
  | start m =>
    obtain ⟨u, ⟨hnone, rfl⟩, rfl⟩ := exec_start_records m s t h herr
    exact ⟨hnone, rfl, rfl, rfl, rfl⟩
  | nop => obtain ⟨-, rfl⟩ | ⟨-, rfl⟩ := exec_nop_cases s t h <;> exact absurd rfl herr
  | clrerr =>
    obtain ⟨-, rfl⟩ | ⟨-, rfl⟩ := exec_clrerr_cases s t h
    · exact absurd rfl herr
    · exact absurd rfl hcode
  | initD =>
    obtain ⟨-, rfl⟩ := exec_initD_cases s t h
    exact absurd rfl herr
  | initR =>
    obtain rfl := exec_initR_cases s t h
    exact absurd rfl herr
  | step m =>
    obtain ⟨-, rfl⟩ := exec_step_cases m s t h
    exact absurd rfl herr
  | fold m =>
    obtain ⟨-, rfl⟩ := exec_fold_cases m s t h
    exact absurd rfl herr
  | fin m =>
    obtain rfl := exec_fin_cases m s t h
    exact absurd rfl herr

end Sys2Proof.Machine
end

section
/-! PROOFS. The encoder and the decoder are inverse to each other (30_encoding.md sections 1 and 3). -/

namespace Sys2Proof

/-! ## From an operation to its word and back -/

theorem decodeBus_read (off : BitVec 16) (data : Word) : decodeBus (busWord 0#1 off data) = .hrd off := by
  have hwe : (0#1 ++ off).getLsbD 16 = false := BitVec.getLsbD_append
  have hoff : (0#1 ++ off).extractLsb' 0 16 = off := BitVec.extractLsb'_append_eq_right
  simp only [decodeBus, busWord, hwe, hoff, Bool.false_eq_true, if_false]

theorem decodeBus_write (off : BitVec 16) (data : Word) : decodeBus (busWord 1#1 off data) = .hwr off data := by
  have hwe : (1#1 ++ off).getLsbD 16 = true := BitVec.getLsbD_append
  have hoff : (1#1 ++ off).extractLsb' 0 16 = off := BitVec.extractLsb'_append_eq_right
  simp only [decodeBus, busWord, hwe, hoff, if_true]

theorem decode_encode (i : Instr) : decode (encode i) = .ok i := by
  cases i with
  | hrd off => exact congrArg Except.ok (decodeBus_read off 0#32)
  | hwr off data => exact congrArg Except.ok (decodeBus_write off data)
  | nop => rfl
  | start m => cases m <;> rfl
  | clrerr => rfl
  | initD => rfl
  | initR => rfl
  | step m => cases m <;> rfl
  | fold m => cases m <;> rfl
  | fin m => cases m <;> rfl

theorem encode_legal (i : Instr) : (encode i).legal = true := by
  cases i with
  | hrd off => exact Bool.or_true _
  | hwr off data =>
    have hwe : (1#1 ++ off).getLsbD 16 = true := BitVec.getLsbD_append
    simp only [encode, busWord, CodeWord.legal, busLegal, hwe, Bool.true_or]
  | nop => rfl
  | start m => cases m <;> rfl
  | clrerr => rfl
  | initD => rfl
  | initR => rfl
  | step m => cases m <;> rfl
  | fold m => cases m <;> rfl
  | fin m => cases m <;> rfl

/-! ## From a legal word to its operation and back -/

/-- The data of a read is not encoded, and a legal read carries none (R72). -/
theorem encode_decodeBus_of_legal (w : BusWord) (h : busLegal w = true) : encode (decodeBus w) = .bus w := by
  obtain ⟨data, he⟩ := encode_decodeBus w
  suffices data = w.data by rw [he, this]
  unfold decodeBus at he
  split at he <;> simp only [encode, busWord, CodeWord.bus.injEq, BusWord.mk.injEq] at he <;> obtain ⟨-, rfl⟩ := he
  next => rfl
  next hwe =>
    simp only [busLegal, hwe, Bool.false_or, beq_iff_eq] at h
    exact h.symm

theorem commandLegal_iff (cw : Word) : commandLegal cw = true ↔
    cw = 0x00000000#32 ∨ cw = 0x00000001#32 ∨ cw = 0x00000011#32 ∨ cw = 0x00000002#32 := by
  rw [← commandFields_legal_iff]
  simp [commandLegal, and_assoc]

theorem decodeCommand_of_legal (cw : Word) (h : commandLegal cw = true) : ∃ i, decodeCommand cw = .ok i := by
  obtain rfl | rfl | rfl | rfl := (commandLegal_iff cw).1 h <;> exact ⟨_, rfl⟩

theorem decodeSelector_of_legal (sel : BitVec 4) (h : selectorLegal sel = true) : ∃ i, decodeSelector sel = .ok i := by
  have hall : ∀ sel : BitVec 4, selectorLegal sel = true → (decodeSelector sel).toOption.isSome = true := by decide
  have hsome := hall sel h
  cases hd : decodeSelector sel with
  | ok i => exact ⟨i, rfl⟩
  | error x => simp [hd, Except.toOption] at hsome

theorem encode_decode_of_legal (w : CodeWord) (h : w.legal = true) : ∃ i, decode w = .ok i ∧ encode i = w := by
  cases w with
  | bus b => exact ⟨decodeBus b, rfl, encode_decodeBus_of_legal b h⟩
  | command cw =>
    obtain ⟨i, hi⟩ := decodeCommand_of_legal cw h
    exact ⟨i, hi, encode_of_decodeCommand cw i hi⟩
  | selector sel =>
    obtain ⟨i, hi⟩ := decodeSelector_of_legal sel h
    exact ⟨i, hi, encode_of_decodeSelector sel i hi⟩

/-- Settles O1: an operation's word is legal and decodes to it; a legal word is that of the operation it decodes to. -/
theorem decodeInvertsEncode : Obligations.DecodeInvertsEncode :=
  ⟨fun i => ⟨encode_legal i, decode_encode i⟩, encode_decode_of_legal⟩

/-- Settles O5: the six words are closed terms, which the decoder evaluates. -/
theorem specWordsDecode : Obligations.SpecWordsDecode := by
  unfold Obligations.SpecWordsDecode
  decide

end Sys2Proof
end

section
/-! PROOFS. What a completed operation can be, said once for all ten (`Completes`), and what is read off it: who writes which
register and which byte of the Working Buffer (10_state.md sections 1 to 5), that the first error is kept (60_exceptions.md
section 2), and the frame of every operation. -/

namespace Sys2Proof.Machine

/-- The next states of an operation. The updates are written out, so that a field one of them does not name is as it was
by definition. -/
inductive Completes (s : State) : Instr → State → Prop
  /-- Held, with no effect (43_host_interface.md R121). -/
  | held (i : Instr) : Completes s i s
  /-- Performed, with no effect but that the transaction is over. -/
  | retires (i : Instr) : Completes s i s.retire
  | answers (off : BitVec 16) (v : Word) : Completes s (.hrd off) (s.answer v).retire
  | readRecords (off : BitVec 16) (herr : s.err = 0#4) : Completes s (.hrd off)
      (State.retire (State.answer 0#32 { s with err := ErrCode.addr.bits, errinfo := addrInfo 0#1 off }))
  | writeRecords (i : Instr) (code : ErrCode) (info : Word) (herr : s.err = 0#4) :
      Completes s i (State.retire { s with err := code.bits, errinfo := info })
  | begins (i : Instr) (m : Mode) (hi : i = .start m ∨ i = .hwr 0x0000#16 (startWord m)) (hb : s.busy = false)
      (herr : s.err = 0#4) : Completes s i (State.retire { s with mode := m, phase := .init })
  | clears (i : Instr) (hi : i = .clrerr ∨ i = .hwr 0x0000#16 0x00000002#32) : Completes s i s.clearError.retire
  | hashlen (v : Word) (hb : s.busy = false) : Completes s (.hwr 0x0010#16 v) (State.retire { s with hashlen := v })
  | msglen (v : Word) (hb : s.busy = false) : Completes s (.hwr 0x0014#16 v) (State.retire { s with msglen := v })
  | entropyLo (v : Word) (hb : s.busy = false) : Completes s (.hwr 0x0018#16 v) (State.retire { s with entropyLo := v })
  | entropyHi (v : Word) (hb : s.busy = false) : Completes s (.hwr 0x001C#16 v) (State.retire { s with entropyHi := v })
  | iv0 (v : Word) (hb : s.busy = false) : Completes s (.hwr 0x0020#16 v) (State.retire { s with iv0 := v })
  | iv1 (v : Word) (hb : s.busy = false) : Completes s (.hwr 0x0024#16 v) (State.retire { s with iv1 := v })
  | iv2 (v : Word) (hb : s.busy = false) : Completes s (.hwr 0x0028#16 v) (State.retire { s with iv2 := v })
  | iv3 (v : Word) (hb : s.busy = false) : Completes s (.hwr 0x002C#16 v) (State.retire { s with iv3 := v })
  | window (off : BitVec 16) (v : Word) (n : Nat) (hb : s.busy = false) (hoff : hostTarget off = .window n) :
      Completes s (.hwr off v) (State.retire { s with wb := putWbWord s.wb n v })
  | initD (hfit : wbHolds (hlm s.hashlen.toNat / 4) = true) : Completes s .initD
      (State.beginLoop (Config.cSeed ^^^ s.entropy) Config.cLcg { s with wb := zeroFill (hlm s.hashlen.toNat / 4) s.wb })
  | initR : Completes s .initR (s.beginLoop s.ivSeed s.ivLcg)
  | step (m : Mode) (hfit : wbHolds (s.hpos.toNat / 4 + 1) = true) : Completes s (.step m) s.updateStep
  | fold (m : Mode) (hfit : wbHolds (2 * (s.hashlen.toNat / 4)) = true) : Completes s (.fold m)
      { s with wb := foldLanes s.wbGen (s.hashlen.toNat / 4) (s.hashlen.toNat / 4) s.wb, phase := .fin }
  | fin (m : Mode) : Completes s (.fin m) { s with phase := .done }

/-! ## Every operation completes so -/

theorem completes_of_raiseError (i : Instr) (s : State) (code : ErrCode) (info : Word) :
    Completes s i (s.raiseError code info).retire := by
  obtain ⟨herr, e⟩ | ⟨-, e⟩ := raiseError_cases s code info <;> rw [e]
  · exact .writeRecords i code info herr
  · exact .retires i

theorem completes_of_startJob (i : Instr) (s : State) (m : Mode)
    (hi : i = .start m ∨ i = .hwr 0x0000#16 (startWord m)) (hb : s.busy = false) :
    Completes s i (s.startJob m).retire := by
  obtain ⟨-, e⟩ | ⟨herr, -, e⟩ | ⟨herr, -, e⟩ := startJob_cases s m <;> rw [e]
  · exact .retires i
  · exact .begins i m hi hb herr
  · exact .writeRecords i .hashLen s.hashlen herr

theorem completes_of_hrd (off : BitVec 16) (s t : State) (h : exec (.hrd off) s = .next t) :
    Completes s (.hrd off) t := by
  obtain ⟨-, rfl⟩ | ⟨v, -, rfl⟩ | ⟨-, rfl⟩ := exec_hrd_cases off s t h
  · exact .held _
  · exact .answers off v
  · obtain ⟨herr, e⟩ | ⟨-, e⟩ := raiseError_cases s .addr (addrInfo 0#1 off) <;> rw [e]
    · exact .readRecords off herr
    · exact .answers off 0#32

/-- A command word's operation, from the word that carries it. -/
theorem eq_startWord_of_decodes (data : Word) (m : Mode) (h : decodeCommand data = .ok (.start m)) : data = startWord m :=
  (CodeWord.command.inj (encode_of_decodeCommand data _ h)).symm

theorem eq_clrerr_of_decodes (data : Word) (h : decodeCommand data = .ok .clrerr) : data = 0x00000002#32 :=
  (CodeWord.command.inj (encode_of_decodeCommand data _ h)).symm

theorem completes_of_cmd (data : Word) (s : State) (hb : s.busy = false) :
    Completes s (.hwr 0x0000#16 data) (hwrEffect 0x0000#16 data s).retire := by
  rw [hwrEffect, hostTarget_cmd]
  cases hd : decodeCommand data with
  | error x => exact completes_of_raiseError _ s _ _
  | ok i =>
    cases i with
    | nop => exact .retires _
    | start m => exact completes_of_startJob _ s m (.inr (by rw [eq_startWord_of_decodes data m hd])) hb
    | clrerr => exact .clears _ (.inr (by rw [eq_clrerr_of_decodes data hd]))
    | _ => exact completes_of_raiseError _ s _ _

theorem completes_of_hwr (off : BitVec 16) (data : Word) (s t : State) (h : exec (.hwr off data) s = .next t) :
    Completes s (.hwr off data) t := by
  obtain ⟨-, rfl⟩ | ⟨hb, rfl⟩ := exec_hwr_cases off data s t h
  · exact .held _
  obtain ⟨rfl, e⟩ | ⟨rfl, e⟩ | ⟨rfl, e⟩ | ⟨rfl, e⟩ | ⟨rfl, e⟩ | ⟨rfl, e⟩ | ⟨rfl, e⟩ | ⟨rfl, e⟩ | ⟨rfl, e⟩ | ⟨rfl, e⟩ |
    ⟨rfl, e⟩ | ⟨n, -, -, e⟩ | ⟨-, e⟩ := hostTarget_cases off
  · exact completes_of_cmd data s hb
  · exact .retires _
  · exact .retires _
  · exact .hashlen data hb
  · exact .msglen data hb
  · exact .entropyLo data hb
  · exact .entropyHi data hb
  · exact .iv0 data hb
  · exact .iv1 data hb
  · exact .iv2 data hb
  · exact .iv3 data hb
  · rw [hwrEffect_window off data s n e]
    exact .window off data n hb e
  · rw [hwrEffect_nothing off data s e]
    exact completes_of_raiseError _ s _ _

theorem completes_of_exec (i : Instr) (s t : State) (h : exec i s = .next t) : Completes s i t := by
  cases i with
  | hrd off => exact completes_of_hrd off s t h
  | hwr off data => exact completes_of_hwr off data s t h
  | nop =>
    obtain ⟨-, rfl⟩ | ⟨-, rfl⟩ := exec_nop_cases s t h
    · exact .held _
    · exact .retires _
  | start m =>
    obtain ⟨-, rfl⟩ | ⟨hb, rfl⟩ := exec_start_cases m s t h
    · exact .held _
    · exact completes_of_startJob _ s m (.inl rfl) hb
  | clrerr =>
    obtain ⟨-, rfl⟩ | ⟨-, rfl⟩ := exec_clrerr_cases s t h
    · exact .held _
    · exact .clears _ (.inl rfl)
  | initD =>
    obtain ⟨hfit, rfl⟩ := exec_initD_cases s t h
    exact .initD hfit
  | initR =>
    obtain rfl := exec_initR_cases s t h
    exact .initR
  | step m =>
    obtain ⟨hfit, rfl⟩ := exec_step_cases m s t h
    exact .step m hfit
  | fold m =>
    obtain ⟨hfit, rfl⟩ := exec_fold_cases m s t h
    exact .fold m hfit
  | fin m =>
    obtain rfl := exec_fin_cases m s t h
    exact .fin m

/-! ## Registers and who writes them -/

/-- Settles O22: what completes as a record finds no error recorded, and what clears the error is CLRERR. -/
theorem firstErrorIsKept : Obligations.FirstErrorIsKept := by
  intro i s t herr h hclr hword
  cases completes_of_exec i s t h with
  | readRecords off hnone => exact absurd hnone herr
  | writeRecords i code info hnone => exact absurd hnone herr
  | clears i hi => exact absurd hi (not_or.2 ⟨hclr, hword⟩)
  | _ => exact ⟨rfl, rfl⟩

/-- Settles O43: of all completions only the one that begins a job names `MODE`. -/
theorem modeIsWrittenOnlyByStart : Obligations.ModeIsWrittenOnlyByStart := by
  intro i s t h
  cases completes_of_exec i s t h with
  | begins i m hi hb herr => exact .inr ⟨m, hi, rfl, rfl, hb, herr⟩
  | _ => exact .inl rfl

/-- Settles O44: the initialisations write all six registers, STEP four of them, and no other completion names one. -/
theorem engineRegisterWriters : Obligations.EngineRegisterWriters := by
  intro i s t h
  cases completes_of_exec i s t h with
  | initD hfit => exact ⟨fun _ => .inl rfl, fun _ => .inl rfl⟩
  | initR => exact ⟨fun _ => .inr (.inl rfl), fun _ => .inr rfl⟩
  | step m hfit => exact ⟨fun _ => .inr (.inr ⟨m, rfl⟩), by simp⟩
  | _ => exact ⟨by simp, by simp⟩

/-- Settles O46: each job register is named by one completion, a write of its offset. -/
theorem jobRegisterWriters : Obligations.JobRegisterWriters := by
  intro i s t h
  cases completes_of_exec i s t h <;> simp [*]

/-! ## The Working Buffer and who writes it -/

theorem wbByteOf_putWbWord_of_ne (gen : Nat) (m : Memory) (n a : Nat) (v : Word) (h : a / 4 ≠ n) :
    wbByteOf gen (putWbWord m n v) a = wbByteOf gen m a :=
  (wbByteOf_putWbWord ..).trans (if_neg h)

theorem wbByteOf_zeroFill_of_ge (gen n : Nat) (m : Memory) (a : Nat) (h : n ≤ a / 4) :
    wbByteOf gen (zeroFill n m) a = wbByteOf gen m a :=
  (wbByteOf_zeroFill ..).trans (if_neg (by omega))

/-- Settles O45: the completions that name `WB` write words, and a byte outside those words is as it was. -/
theorem workingBufferWriters : Obligations.WorkingBufferWriters := by
  intro i s t h a ha
  cases completes_of_exec i s t h with
  | window off v n hb hoff =>
    have hin : a / 4 = n := by
      by_contra hout
      exact ha (wbByteOf_putWbWord_of_ne _ _ _ _ _ hout)
    obtain ⟨-, hn⟩ := hostTarget_window off n hoff
    exact .inr (.inr (.inr ⟨off, v, rfl, hb, by omega, by omega, by omega⟩))
  | initD hfit =>
    have hin : a / 4 < hlm s.hashlen.toNat / 4 := by
      by_contra hout
      exact ha (wbByteOf_zeroFill_of_ge _ _ _ _ (not_lt.1 hout))
    exact .inl ⟨rfl, by omega⟩
  | step m hfit =>
    have hin : a / 4 = s.hpos.toNat / 4 := by
      by_contra hout
      exact ha (wbByteOf_putWbWord_of_ne _ _ _ _ _ hout)
    exact .inr (.inl ⟨m, rfl, by omega, by omega⟩)
  | fold m hfit =>
    have hin : a / 4 < s.hashlen.toNat / 4 := by
      by_contra hout
      exact ha (wbByteOf_foldLanes _ _ _ _ _ (not_lt.1 hout))
    exact .inr (.inr (.inl ⟨m, rfl, by omega⟩))
  | _ => exact absurd rfl ha

/-! ## Frames -/

/-- No operation writes the message store. -/
theorem exec_keeps_msg (i : Instr) (s t : State) (h : exec i s = .next t) : t.msg = s.msg ∧ t.msgGen = s.msgGen := by
  cases completes_of_exec i s t h <;> exact ⟨rfl, rfl⟩

theorem exec_keeps_msgByte (i : Instr) (s t : State) (h : exec i s = .next t) (a : Nat) : t.msgByte a = s.msgByte a := by
  obtain ⟨hmsg, hgen⟩ := exec_keeps_msg i s t h
  rw [State.msgByte, hmsg, hgen]
  rfl

/-- A performed write names no engine register; `MODE` and `PHASE` only as START's word, `WB` only in the word of its offset. -/
theorem exec_hwr_frame (off : BitVec 16) (data : Word) (s t : State) (h : exec (.hwr off data) s = .next t) :
    t = { s with
      hashlen := t.hashlen, msglen := t.msglen, entropyLo := t.entropyLo, entropyHi := t.entropyHi
      iv0 := t.iv0, iv1 := t.iv1, iv2 := t.iv2, iv3 := t.iv3, wb := t.wb
      mode := t.mode, phase := t.phase, err := t.err, errinfo := t.errinfo, port := t.port } ∧
    (t.mode ≠ s.mode ∨ t.phase ≠ s.phase → off = 0x0000#16 ∧ ∃ m, data = startWord m) ∧
    ∀ a, 0x1000 + a < off.toNat ∨ off.toNat + 4 ≤ 0x1000 + a → t.wbByte a = s.wbByte a := by
  cases completes_of_hwr off data s t h with
  | begins i m hi =>
    obtain ⟨rfl, rfl⟩ := Instr.hwr.inj (hi.resolve_left (by simp))
    exact ⟨rfl, fun _ => ⟨rfl, m, rfl⟩, fun _ _ => rfl⟩
  | window off v n hb hoff =>
    obtain ⟨-, hn⟩ := hostTarget_window off n hoff
    exact ⟨rfl, by simp, fun a ha => wbByteOf_putWbWord_of_ne _ _ _ _ _ (by omega)⟩
  | _ => exact ⟨rfl, by simp, fun _ _ => rfl⟩

/-- Settles O47: each operation's completions, with what they leave as it was. -/
theorem frameOfEachInstruction : Obligations.FrameOfEachInstruction := by
  intro i s t h
  refine ⟨exec_keeps_msgByte i s t h, ?_⟩
  cases i with
  | hrd off =>
    cases completes_of_hrd off s t h with
    | begins i m hi => simp at hi
    | _ => rfl
  | hwr off data => exact exec_hwr_frame off data s t h
  | nop => obtain ⟨-, rfl⟩ | ⟨-, rfl⟩ := exec_nop_cases s t h <;> rfl
  | start m => cases completes_of_exec _ s t h <;> rfl
  | clrerr => obtain ⟨-, rfl⟩ | ⟨-, rfl⟩ := exec_clrerr_cases s t h <;> rfl
  | initD =>
    obtain ⟨-, rfl⟩ := exec_initD_cases s t h
    exact ⟨rfl, fun a ha => wbByteOf_zeroFill_of_ge _ _ _ _ (by omega)⟩
  | initR =>
    obtain rfl := exec_initR_cases s t h
    rfl
  | step m =>
    obtain ⟨-, rfl⟩ := exec_step_cases m s t h
    exact ⟨rfl, fun a ha => wbByteOf_putWbWord_of_ne _ _ _ _ _ (by omega)⟩
  | fold m =>
    obtain ⟨-, rfl⟩ := exec_fold_cases m s t h
    exact ⟨rfl, fun a ha => wbByteOf_foldLanes _ _ _ _ _ (by omega)⟩
  | fin m =>
    obtain rfl := exec_fin_cases m s t h
    rfl

end Sys2Proof.Machine
end

section
/-! PROOFS. The invariant of the block (10_state.md section 7, 60_exceptions.md section 4) and progress (00_scope.md section 5).
`State.Inv` is `State.JobInv`, which every step keeps, with what it says of the memories and of a recorded error. -/

namespace Sys2Proof.Machine

/-! ## The two parts that are no part of `State.JobInv` -/

/-- The words an operation writes exist, so the Working Buffer lists only bytes that do. -/
theorem exec_keeps_memoryOk (i : Instr) (s t : State) (hs : s.memoryOk) (h : exec i s = .next t) : t.memoryOk := by
  obtain ⟨hwf, hbelow, hmsg⟩ := hs
  cases completes_of_exec i s t h with
  | window off v n hb hoff =>
    obtain ⟨hn, -⟩ := hostTarget_window off n hoff
    exact ⟨putWbWord_wf _ _ _ hwf, putWbWord_below _ _ _ _ hn hbelow, hmsg⟩
  | initD hfit => exact ⟨zeroFill_wf _ _ hwf, zeroFill_below _ _ _ (of_decide_eq_true hfit) hbelow, hmsg⟩
  | step m hfit => exact ⟨putWbWord_wf _ _ _ hwf, putWbWord_below _ _ _ _ (of_decide_eq_true hfit) hbelow, hmsg⟩
  | fold m hfit =>
    have hlane : 4 * (s.hashlen.toNat / 4) ≤ Config.wbBytes := by
      have hlanes := of_decide_eq_true hfit
      omega
    exact ⟨foldLanes_wf _ _ _ _ hwf, foldLanes_below _ _ _ _ _ hlane hbelow, hmsg⟩
  | _ => exact ⟨hwf, hbelow, hmsg⟩

theorem ErrCode.bits_spec (code : ErrCode) : code.bits.toNat ≤ 3 ∧ code.bits ≠ 0#4 := by
  cases code <;> decide

theorem exec_keeps_errorOk (i : Instr) (s t : State) (hs : s.errorOk) (h : exec i s = .next t) : t.errorOk := by
  cases completes_of_exec i s t h with
  | readRecords off herr => exact ⟨(ErrCode.bits_spec .addr).1, fun hz => absurd hz (ErrCode.bits_spec .addr).2⟩
  | writeRecords i code info herr => exact ⟨code.bits_spec.1, fun hz => absurd hz code.bits_spec.2⟩
  | clears i hi => exact ⟨Nat.zero_le 3, fun _ => rfl⟩
  | _ => exact hs

/-! ## The invariant at reset -/

/-- Settles O11: nothing is recorded, listed or running right after reset. -/
theorem invHoldsAtPowerOn : Obligations.InvHoldsAtPowerOn := fun msg port turns hmsg =>
  ⟨⟨rfl, rfl, hmsg⟩, ⟨Nat.zero_le 3, fun _ => rfl⟩, State.jobInv_of_rest (State.powerOn msg port turns) rfl⟩

theorem State.inv_assertReset (s : State) (hmsg : s.msg.wf = true) : s.assertReset.Inv :=
  ⟨⟨rfl, rfl, hmsg⟩, ⟨Nat.zero_le 3, fun _ => rfl⟩, State.jobInv_of_rest _ rfl⟩

/-! ## Every step keeps it -/

theorem State.inv_placeMessage (s : State) (bytes : List Byte) (hs : s.Inv) : (s.placeMessage bytes).Inv := by
  obtain ⟨⟨hwf, hbelow, hmsg⟩, herr, hjob⟩ := hs
  refine ⟨?_, ?_, s.jobInv_placeMessage bytes hjob⟩ <;> unfold State.placeMessage <;> split
  · exact ⟨hwf, hbelow, hmsg⟩
  · exact ⟨hwf, hbelow, Memory.ofBytes_wf bytes 0⟩
  · exact herr
  · exact herr

theorem step_keeps_inv (s t : State) (hs : s.Inv) (h : step s = .next t) : t.Inv := by
  obtain ⟨hmem, herr, hjob⟩ := hs
  have moves : ∀ i ts, exec i { s with turns := ts } = .next t → t.Inv := fun i ts hx =>
    ⟨exec_keeps_memoryOk i { s with turns := ts } t hmem hx, exec_keeps_errorOk i { s with turns := ts } t herr hx,
      step_keeps_jobInv s t hjob h⟩
  obtain ⟨i, ts, -, hx⟩ | ⟨i, ts, -, hx⟩ | ⟨ts, rfl⟩ | ⟨ts, -, rfl⟩ | ⟨bytes, ts, -, rfl⟩ := step_cases s t h
  · exact moves i ts hx
  · exact moves i ts hx
  · exact ⟨hmem, herr, hjob⟩
  · obtain ⟨-, -, hmsg⟩ := hmem
    exact State.inv_assertReset _ hmsg
  · exact State.inv_placeMessage _ bytes ⟨hmem, herr, hjob⟩

/-- Settles O12: an operation keeps the memories and the error, the job's part is `step_keeps_jobInv`, and a move that is no
operation leaves a state at rest or as it was. -/
theorem everyStepKeepsInv : Obligations.EveryStepKeepsInv := step_keeps_inv

theorem inv_of_reachable (msg : Memory) (port : List BusWord) (turns : List Turn) (n : Nat) (t : State) (hmsg : msg.wf = true)
    (h : runSteps n (State.powerOn msg port turns) = .next t) : t.Inv :=
  runSteps_keeps State.Inv step_keeps_inv n _ t (invHoldsAtPowerOn msg port turns hmsg) h

/-- Settles O15: two clauses of the invariant, which holds in every reachable state. -/
theorem reachableJobsHaveNoError : Obligations.ReachableJobsHaveNoError := by
  intro msg port turns n t hmsg hrun
  obtain ⟨-, ⟨hcode, -⟩, hjob, -⟩ := inv_of_reachable msg port turns n t hmsg hrun
  exact ⟨fun hb => (hjob hb).2, hcode⟩

/-! ## Progress -/

theorem exec_hwr_next (off : BitVec 16) (data : Word) (s : State) : ∃ t, exec (.hwr off data) s = .next t := by
  rw [exec_hwr_eq]
  split <;> exact ⟨_, rfl⟩

theorem exec_host_next (i : Instr) (s : State) (hi : s.hostInstr = some i) : ∃ t, exec i s = .next t := by
  obtain ⟨off, rfl⟩ | ⟨off, data, rfl⟩ := hostInstr_bus s i hi
  · exact exec_hrd_next off s
  · exact exec_hwr_next off data s

theorem State.JobInv.exec_engine_next {s : State} (hs : s.JobInv) {i : Instr} (hi : s.engineInstr = some i) :
    ∃ t, exec i s = .next t := by
  have hb : s.busy = true := by rw [← engineInstr_isSome, hi]; rfl
  obtain ⟨j, t, hj, hx, -⟩ := hs.exec_engine hb
  obtain rfl : i = j := Option.some.inj (hi.symm.trans hj)
  exact ⟨t, hx⟩

/-- Settles O13: the host's transactions always complete, and the invariant keeps the engine inside the buffer. -/
theorem noStepStops : Obligations.NoStepStops := fun s ⟨_, _, hjob⟩ =>
  step_next_of s (fun _ ts hi => State.JobInv.exec_engine_next (s := { s with turns := ts }) hjob hi)
    (fun i ts hi => exec_host_next i { s with turns := ts } hi)

end Sys2Proof.Machine
end

section
/-! PROOFS. Isolation (10_state.md section 6, 40_init_padding.md sections 2 and 3, 41_update_loop.md R101): an operation goes the
same way from a state in which fields that it does not read are replaced. -/

namespace Sys2Proof.Machine

/-! ## HRD -/

/-- HRD goes the same way through a change of state that neither its answer nor its error entry notices. -/
theorem exec_hrd_through (off : BitVec 16) (s t : State) (f : State → State)
    (hheld : (f s).holdsRead off = s.holdsRead off) (hread : (f s).hostRead off = s.hostRead off)
    (hanswer : ∀ v, ((f s).answer v).retire = f (s.answer v).retire)
    (hraise : (((f s).raiseError .addr (addrInfo 0#1 off)).answer 0#32).retire =
      f ((s.raiseError .addr (addrInfo 0#1 off)).answer 0#32).retire)
    (h : exec (.hrd off) s = .next t) : exec (.hrd off) (f s) = .next (f t) := by
  cases hh : s.holdsRead off with
  | true =>
    rw [exec_hrd_held off s hh] at h
    cases h
    exact exec_hrd_held off _ (hheld.trans hh)
  | false =>
    cases hv : s.hostRead off with
    | some v =>
      rw [exec_hrd_answers off s v hh hv] at h
      cases h
      exact (exec_hrd_answers off _ v (hheld.trans hh) (hread.trans hv)).trans (congrArg _ (hanswer v))
    | none =>
      rw [exec_hrd_raises off s hh hv] at h
      cases h
      exact (exec_hrd_raises off _ (hheld.trans hh) (hread.trans hv)).trans (congrArg _ hraise)

/-- Settles O40: what a read answers and what error entry records are made of visible registers alone. -/
theorem hiddenRegistersCannotBeRead : Obligations.HiddenRegistersCannotBeRead :=
  fun s t off x y k c p b m =>
    exec_hrd_through off s t
      (fun u => { u with seed := x, lcg := y, k := k, c := c, hpos := p, lb := b, mode := m }) rfl rfl (fun _ => rfl)
      (by simp only [State.raiseError_eq]; rfl)

/-! ## The initialisations -/

/-- Settles O41: `State.beginLoop` is given the two 64-bit values, and reads neither `ENTROPY` nor `IV` beside them. -/
theorem initialisationsReadOnlyTheirOwnInput : Obligations.InitialisationsReadOnlyTheirOwnInput := by
  refine fun s t a b c d => ⟨fun h => ?_, fun h => ?_⟩
  · obtain rfl := exec_initR_cases s t h
    rfl
  · obtain ⟨hfit, rfl⟩ := exec_initD_cases s t h
    exact exec_initD_of_wbHolds { s with iv0 := a, iv1 := b, iv2 := c, iv3 := d } hfit

/-! ## The message store (R101) -/

/-- The state with another message store behind the message port. -/
def State.withStore (msg : Memory) (gen : Nat) (s : State) : State := { s with msg := msg, msgGen := gen }

/-- The store agrees with that of the state below `MSGLEN`. -/
def State.AgreesBelow (s : State) (msg : Memory) (gen : Nat) : Prop :=
  ∀ a, a < s.msglen.toNat → (s.withStore msg gen).msgByte a = s.msgByte a

section
variable (s : State) (msg : Memory) (gen : Nat)

theorem raiseError_withStore (code : ErrCode) (info : Word) :
    (s.withStore msg gen).raiseError code info = (s.raiseError code info).withStore msg gen := by
  simp only [State.raiseError_eq]
  rfl

theorem startJob_withStore (m : Mode) :
    (s.withStore msg gen).startJob m = (s.startJob m).withStore msg gen := by
  have hraise := raiseError_withStore s msg gen .hashLen s.hashlen
  unfold State.startJob
  simp only [apply_ite (State.withStore msg gen), ← hraise]
  rfl

theorem hwrEffect_withStore (off : BitVec 16) (data : Word) :
    hwrEffect off data (s.withStore msg gen) = (hwrEffect off data s).withStore msg gen := by
  unfold hwrEffect
  cases hostTarget off with
  | cmd =>
    cases decodeCommand data with
    | error x => exact raiseError_withStore s msg gen _ _
    | ok i =>
      cases i with
      | nop => rfl
      | start m => exact startJob_withStore s msg gen m
      | clrerr => rfl
      | _ => exact raiseError_withStore s msg gen _ _
  | nothing => exact raiseError_withStore s msg gen _ _
  | _ => rfl

theorem performWrite_withStore (t : State) (effect : State → State)
    (heffect : effect (s.withStore msg gen) = (effect s).withStore msg gen) (h : s.performWrite effect = .next t) :
    (s.withStore msg gen).performWrite effect = .next (t.withStore msg gen) := by
  obtain ⟨hb, rfl⟩ | ⟨hb, rfl⟩ := performWrite_next s t effect h
  · exact performWrite_held _ effect hb
  · rw [performWrite_free (s.withStore msg gen) effect hb, heffect]
    rfl

variable {s msg gen} (hagrees : s.AgreesBelow msg gen)
include hagrees

theorem State.AgreesBelow.padByte_eq : (s.withStore msg gen).padByte = s.padByte := by
  by_cases hz : s.msglen = 0#32
  · rw [s.padByte_of_empty hz]
    exact State.padByte_of_empty _ hz
  · have hlen : 0 < s.msglen.toNat := by bv_omega
    rw [s.padByte_of_nonempty hlen, ← hagrees _ (by omega)]
    exact State.padByte_of_nonempty _ hlen

theorem State.AgreesBelow.msgWord_eq (k : Nat) : (s.withStore msg gen).msgWord k = s.msgWord k := by
  have hbyte : ∀ x, (s.withStore msg gen).paddedByte x = s.paddedByte x := by
    intro x
    by_cases hx : x < s.msglen.toNat
    · rw [s.paddedByte_of_lt x hx, ← hagrees x hx]
      exact State.paddedByte_of_lt _ x hx
    · rw [s.paddedByte_of_ge x (not_lt.1 hx)]
      exact State.paddedByte_of_ge _ x (not_lt.1 hx)
  simp only [State.msgWord, hbyte]

theorem State.AgreesBelow.beginLoop_eq (seed lcg : DWord) :
    (s.withStore msg gen).beginLoop seed lcg = (s.beginLoop seed lcg).withStore msg gen := by
  rw [State.beginLoop, hagrees.padByte_eq]
  rfl

theorem State.AgreesBelow.updateStep_eq : (s.withStore msg gen).updateStep = s.updateStep.withStore msg gen := by
  have hword : (s.withStore msg gen).msgWord (s.withStore msg gen).k.toNat = s.msgWord s.k.toNat :=
    hagrees.msgWord_eq s.k.toNat
  rw [State.updateStep, hword]
  rfl

end

/-- Settles O39: only the initialisations and STEP read the message, and those below `MSGLEN`. -/
theorem noReadPastTheMessage : Obligations.NoReadPastTheMessage := by
  intro i s t msg gen hagrees h
  change exec i (s.withStore msg gen) = .next (t.withStore msg gen)
  change s.AgreesBelow msg gen at hagrees
  cases i with
  | hrd off =>
    exact exec_hrd_through off s t (State.withStore msg gen) rfl rfl (fun _ => rfl)
      (by rw [raiseError_withStore]; rfl) h
  | hwr off data =>
    obtain ⟨hb, rfl⟩ | ⟨hb, rfl⟩ := exec_hwr_cases off data s t h
    · exact exec_hwr_held off data _ hb
    · rw [exec_hwr_free off data (s.withStore msg gen) hb, hwrEffect_withStore]
      rfl
  | nop => exact performWrite_withStore s msg gen t _ rfl h
  | start m => exact performWrite_withStore s msg gen t _ (startJob_withStore s msg gen m) h
  | clrerr => exact performWrite_withStore s msg gen t _ rfl h
  | initD =>
    obtain ⟨hfit, rfl⟩ := exec_initD_cases s t h
    have hfilled : State.AgreesBelow { s with wb := zeroFill (hlm s.hashlen.toNat / 4) s.wb } msg gen := hagrees
    exact (exec_initD_of_wbHolds (s.withStore msg gen) hfit).trans
      (congrArg Host.Outcome.next (hfilled.beginLoop_eq (Config.cSeed ^^^ s.entropy) Config.cLcg))
  | initR =>
    obtain rfl := exec_initR_cases s t h
    exact congrArg _ (hagrees.beginLoop_eq s.ivSeed s.ivLcg)
  | step m =>
    obtain ⟨hfit, rfl⟩ := exec_step_cases m s t h
    exact (exec_step_of_wbHolds m (s.withStore msg gen) hfit).trans (congrArg _ hagrees.updateStep_eq)
  | fold m =>
    obtain ⟨hfit, rfl⟩ := exec_fold_cases m s t h
    exact exec_fold_of_wbHolds m (s.withStore msg gen) hfit
  | fin m =>
    obtain rfl := exec_fin_cases m s t h
    rfl

end Sys2Proof.Machine
end

section
/-! PROOFS. One step of the machine (00_scope.md R10, R15): which operation it performs, that it waits, the reset input
(70_reset_and_hazards.md section 1), the placing of a message, the host's turn during a job (43_host_interface.md R121), and the
edges of `PHASE` (10_state.md R24). -/

namespace Sys2Proof.Machine

/-! ## Who moves -/

theorem engineInstr_of_decodes (s : State) (i : Instr) (h : decode (.selector s.sel) = .ok i) : s.engineInstr = some i := by
  rw [State.engineInstr, h]
  rfl

theorem engineInstr_of_rest (s : State) (hb : s.busy = false) : s.engineInstr = none := by
  rw [← Option.isNone_iff_eq_none, ← Option.not_isSome, engineInstr_isSome, hb]
  rfl

theorem hostInstr_of_decodes (s : State) (w : BusWord) (rest : List BusWord) (i : Instr) (hport : s.port = w :: rest)
    (h : decode (.bus w) = .ok i) : s.hostInstr = some i := by
  rw [hostInstr_cons s w rest hport]
  exact congrArg some (Except.ok.inj h)

theorem step_host_at_rest (s : State) (hturns : s.turns = []) (hb : s.busy = false) (i : Instr) (hi : s.hostInstr = some i) :
    step s = exec i s := by
  simp [step, State.nextMove, hturns, engineInstr_of_rest s hb, hi]

theorem step_engine_turn (s : State) (ts : List Turn) (hturns : s.turns = .engine :: ts) (i : Instr)
    (hi : s.engineInstr = some i) : step s = exec i { s with turns := ts } := by
  simp [step, State.nextMove, hturns, hi]

theorem step_host_turn (s : State) (ts : List Turn) (hturns : s.turns = .host :: ts) (i : Instr)
    (hi : s.hostInstr = some i) : step s = exec i { s with turns := ts } := by
  simp [step, State.nextMove, hturns, hi]

/-- Settles O6: in each case the operation is the one that `State.nextMove` picks. -/
theorem stepRunsTheDecodedInstruction : Obligations.StepRunsTheDecodedInstruction := fun s i =>
  ⟨fun ht h => step_engine s i ht (engineInstr_of_decodes s i h),
    fun w rest ht hb hport h => step_host_at_rest s ht hb i (hostInstr_of_decodes s w rest i hport h),
    fun ts ht h => step_engine_turn s ts ht i (engineInstr_of_decodes s i h),
    fun ts w rest ht hport h => step_host_turn s ts ht i (hostInstr_of_decodes s w rest i hport h)⟩

/-- Settles O7: at rest the engine has no step, and an empty port has no transaction. -/
theorem stepWaitsWhereNothingMoves : Obligations.StepWaitsWhereNothingMoves := by
  intro s hb
  have hengine := engineInstr_of_rest s hb
  refine ⟨fun ht hport => ?_, fun ts ht => ?_, fun ts ht hport => ?_⟩
  · simp [step, State.nextMove, ht, hengine, hostInstr_nil s hport]
  · simp [step, State.nextMove, ht, hengine]
  · simp [step, State.nextMove, ht, hostInstr_nil s hport]

/-! ## The hold (R121) -/

/-- While a job runs every transaction is held but the reads of `STATUS` and of `ERRINFO`. -/
theorem State.holds_of_busy (s : State) (w : BusWord) (hb : s.busy = true) (h4 : w.header ≠ 0x00004#17)
    (h8 : w.header ≠ 0x00008#17) : s.holds w = true := by
  have hw := header_eq_append w.header
  unfold State.holds decodeBus
  cases hwe : w.header.getLsbD 16 with
  | true => exact hb
  | false =>
    rw [hwe] at hw
    refine holdsRead_held s _ hb (fun e => h4 ?_) (fun e => h8 ?_)
    · rw [hw, e]
      rfl
    · rw [hw, e]
      rfl

theorem exec_decodeBus_of_holds (s : State) (w : BusWord) (h : s.holds w = true) : exec (decodeBus w) s = .next s := by
  unfold State.holds at h
  cases hd : decodeBus w with
  | hrd off =>
    rw [hd] at h
    exact exec_hrd_held off s h
  | hwr off data =>
    rw [hd] at h
    exact exec_hwr_held off data s h
  | _ =>
    unfold decodeBus at hd
    split at hd <;> cases hd

/-- Settles O18: a held transaction has no effect, and the other two reads change the answer and the port. -/
theorem hostCannotTouchARunningJob : Obligations.HostCannotTouchARunningJob := by
  intro s ts hturns hb
  have hstep : ∀ w rest, s.port = w :: rest → step s = exec (decodeBus w) { s with turns := ts } := fun w rest hport =>
    step_host_turn s ts hturns _ (hostInstr_cons s w rest hport)
  refine ⟨fun w rest hport h4 h8 => ?_, fun w rest hport hw => ?_, fun w rest hport hw => ?_⟩
  · rw [hstep w rest hport]
    exact exec_decodeBus_of_holds _ w (State.holds_of_busy _ w hb h4 h8)
  · have hd : decodeBus w = .hrd 0x0004#16 := by rw [decodeBus, hw]; rfl
    rw [hstep w rest hport, hd, exec_hrd_status]
    simp only [State.retire, State.answer, hport]
    rfl
  · have hd : decodeBus w = .hrd 0x0008#16 := by rw [decodeBus, hw]; rfl
    rw [hstep w rest hport, hd, exec_hrd_errinfo]
    simp only [State.retire, State.answer, hport]
    rfl

/-! ## The reset input -/

theorem step_reset_turn (s : State) (ts : List Turn) (hturns : s.turns = .reset :: ts) :
    step s = .next (State.assertReset { s with turns := ts }) := by
  simp [step, State.nextMove, hturns]

theorem State.portAfterReset_of_holds (s : State) (w : BusWord) (rest : List BusWord) (hport : s.port = w :: rest)
    (h : s.holds w = true) : s.portAfterReset = rest := by
  simp [State.portAfterReset, hport, h]

theorem State.holds_of_rest (s : State) (w : BusWord) (hb : s.busy = false) : s.holds w = false := by
  unfold State.holds
  split
  · exact holdsRead_free s _ (.inl hb)
  · exact hb

theorem State.portAfterReset_of_rest (s : State) (hb : s.busy = false) : s.portAfterReset = s.port := by
  unfold State.portAfterReset
  split
  next hport => exact hport.symm
  next w rest hport => rw [s.holds_of_rest w hb, hport]; rfl

/-- Settles O8: what `State.assertReset` does not take over from the state is `State.reset`'s. -/
theorem resetInputSetsTheResetState : Obligations.ResetInputSetsTheResetState := by
  intro s ts hturns
  refine ⟨_, step_reset_turn s ts hturns, rfl, rfl, rfl, rfl, rfl, rfl, rfl, rfl, rfl, rfl, rfl, rfl, rfl, rfl,
    fun _ => rfl, rfl, rfl, fun w rest hport hb h4 h8 => ?_, fun hb => ?_⟩
  · exact State.portAfterReset_of_holds { s with turns := ts } w rest hport (State.holds_of_busy _ w hb h4 h8)
  · exact State.portAfterReset_of_rest { s with turns := ts } hb

/-- Settles O9: `State.reset` names the values, and its Working Buffer lists nothing. -/
theorem stateRightAfterReset : Obligations.StateRightAfterReset :=
  ⟨rfl, rfl, rfl, rfl, rfl, rfl, rfl, rfl, rfl, rfl, rfl, rfl, rfl, rfl, fun _ => rfl⟩

/-! ## The placing of a message -/

theorem step_message_turn (s : State) (bytes : List Byte) (ts : List Turn) (hturns : s.turns = .message bytes :: ts) :
    step s = .next (State.placeMessage bytes { s with turns := ts }) := by
  simp [step, State.nextMove, hturns]

/-- Settles O10: a placed list is the whole store, from offset 0 up. -/
theorem messageIsPlacedOnlyAtRest : Obligations.MessageIsPlacedOnlyAtRest := by
  intro s bytes ts hturns
  rw [step_message_turn s bytes ts hturns]
  refine ⟨fun hb => congrArg _ (if_pos hb), fun hb => ⟨_, congrArg _ (if_neg (Bool.eq_false_iff.1 hb)), rfl, ?_⟩⟩
  intro a b hab
  simp [State.msgByte, Memory.lookup_ofBytes, hab]

/-! ## The edges of `PHASE` -/

/-- `PHASE` may move from the one to the other in an engine step. -/
def Phase.EngineEdge (p q : Phase) : Prop :=
  q = p ∨ (p = .init ∧ q = .loop) ∨ (p = .loop ∧ (q = .fold ∨ q = .fin)) ∨ (p = .fold ∧ q = .fin) ∨ (p = .fin ∧ q = .done)

theorem State.nextPhase_cases (s : State) : s.nextPhase = s.phase ∨ s.nextPhase = .fold ∨ s.nextPhase = .fin := by
  unfold State.nextPhase
  split_ifs <;> simp

theorem exec_engine_phase (i : Instr) (s t : State) (hi : s.engineInstr = some i) (h : exec i s = .next t) :
    s.phase.EngineEdge t.phase := by
  rw [engineInstr_eq] at hi
  cases hp : s.phase <;> rw [hp] at hi <;> cases hi
  case init =>
    refine .inr (.inl ⟨rfl, ?_⟩)
    cases hm : s.mode <;> rw [hm] at h
    · obtain ⟨-, rfl⟩ := exec_initD_cases s t h
      rfl
    · obtain rfl := exec_initR_cases s t h
      rfl
  case loop =>
    obtain ⟨-, rfl⟩ := exec_step_cases _ s t h
    obtain hnext | hnext := s.nextPhase_cases
    · exact .inl (hnext.trans hp)
    · exact .inr (.inr (.inl ⟨rfl, hnext⟩))
  case fold =>
    obtain ⟨-, rfl⟩ := exec_fold_cases _ s t h
    exact .inr (.inr (.inr (.inl ⟨rfl, rfl⟩)))
  case fin =>
    obtain rfl := exec_fin_cases _ s t h
    exact .inr (.inr (.inr (.inr ⟨rfl, rfl⟩)))

theorem State.phase_of_rest (s : State) (hb : s.busy = false) : s.phase = .idle ∨ s.phase = .done := by
  unfold State.busy at hb
  cases hp : s.phase <;> simp [hp] at hb ⊢

/-- The host moves `PHASE` only where it begins a job. -/
theorem exec_host_phase (i : Instr) (s t : State) (hi : s.hostInstr = some i) (h : exec i s = .next t) :
    t.phase = s.phase ∨ ((s.phase = .idle ∨ s.phase = .done) ∧ t.phase = .init) := by
  obtain ⟨off, rfl⟩ | ⟨off, data, rfl⟩ := hostInstr_bus s i hi
  · exact .inl (exec_hrd_phase off s t h)
  · obtain ⟨-, rfl⟩ | ⟨hb, rfl⟩ := exec_hwr_cases off data s t h
    · exact .inl rfl
    · obtain hp | ⟨hp, -, -⟩ := hwrEffect_phase off data s
      · exact .inl hp
      · exact .inr ⟨s.phase_of_rest hb, hp⟩

theorem State.placeMessage_phase (s : State) (bytes : List Byte) : (s.placeMessage bytes).phase = s.phase := by
  unfold State.placeMessage
  split <;> rfl

/-- Settles O42: the engine's edges, the host's, and the reset input's. -/
theorem phaseMovesAlongItsEdges : Obligations.PhaseMovesAlongItsEdges := by
  intro s t h
  obtain ⟨i, ts, hi, hx⟩ | ⟨i, ts, hi, hx⟩ | ⟨ts, rfl⟩ | ⟨ts, hturns, rfl⟩ | ⟨bytes, ts, -, rfl⟩ := step_cases s t h
  · obtain hp | hp | hp | hp | hp := exec_engine_phase i { s with turns := ts } t hi hx
    · exact .inl hp
    · exact .inr (.inr (.inl hp))
    · exact .inr (.inr (.inr (.inl hp)))
    · exact .inr (.inr (.inr (.inr (.inl hp))))
    · exact .inr (.inr (.inr (.inr (.inr (.inl hp)))))
  · exact (exec_host_phase i { s with turns := ts } t hi hx).imp_right .inl
  · exact .inl rfl
  · exact .inr (.inr (.inr (.inr (.inr (.inr ⟨rfl, ts, hturns⟩)))))
  · exact .inl (State.placeMessage_phase _ bytes)

end Sys2Proof.Machine
end

section
/-! PROOFS. The words of the Working Buffer (20_memory.md section 1), the window (43_host_interface.md sections 2 and 3), the
model's one fault, and the bounds of the padded length (40_init_padding.md section 1). -/

namespace Sys2Proof.Machine

/-! ## Words and their bytes -/

theorem extractLsb'_byte_append_bytes (b3 b2 b1 b0 : Byte) {j : Nat} (hj : j < 4) :
    ((b3 ++ b2) ++ (b1 ++ b0)).extractLsb' (8 * j) 8 = if j = 0 then b0 else if j = 1 then b1 else if j = 2 then b2 else b3 := by
  interval_cases j
  · rw [BitVec.extractLsb'_append_eq_of_add_le (by decide), BitVec.extractLsb'_append_eq_right]
    rfl
  · rw [BitVec.extractLsb'_append_eq_of_add_le (by decide), BitVec.extractLsb'_append_eq_left]
    rfl
  · rw [BitVec.extractLsb'_append_eq_of_le (by decide)]
    exact BitVec.extractLsb'_append_eq_right
  · rw [BitVec.extractLsb'_append_eq_of_le (by decide)]
    exact BitVec.extractLsb'_append_eq_left

/-- Settles O26: `WB[i]` is its four bytes, and one of them is taken out again. -/
theorem workingBufferByteOrder : Obligations.WorkingBufferByteOrder := by
  intro s n
  obtain ⟨i, j, hj, rfl⟩ : ∃ i j, j < 4 ∧ n = 4 * i + j := ⟨n / 4, n % 4, Nat.mod_lt n (by decide), by omega⟩
  have hdiv : (4 * i + j) / 4 = i := by omega
  have hmod : (4 * i + j) % 4 = j := by omega
  rw [hdiv, hmod]
  refine Eq.trans ?_ (extractLsb'_byte_append_bytes _ _ _ _ hj).symm
  interval_cases j <;> rfl

/-! ## The window -/

/-- Settles O27: the offsets of the window reach its words, and a word write is seen in its own word alone. -/
theorem windowWriteThenRead : Obligations.WindowWriteThenRead := by
  intro s i j data hb hi hj
  have hwrite := exec_hwr_free (BitVec.ofNat 16 (0x1000 + 4 * i)) data s hb
  rw [hwrEffect_window _ data s i (hostTarget_of_window i hi)] at hwrite
  refine ⟨_, _, hwrite, exec_hrd_answers _ _ _ (holdsRead_free _ _ (.inl hb))
    (State.hostRead_window _ _ j (hostTarget_of_window j hj)), ?_, rfl⟩
  split
  next h => exact h ▸ wbWordOf_putWbWord_self ..
  next h => exact wbWordOf_putWbWord_ne _ _ _ _ _ h

/-! ## The model's one fault -/

theorem not_wbHolds (n : Nat) (h : Config.wbBytes < 4 * n) : ¬ wbHolds n = true := by
  simpa [wbHolds] using h

/-- Settles O33: a word past the end makes the capacity test of the operation fail. -/
theorem engineStopsOutsideTheBuffer : Obligations.EngineStopsOutsideTheBuffer := fun _ _ =>
  ⟨fun h => if_neg (not_wbHolds _ h), fun h => if_neg (not_wbHolds _ h), fun h => if_neg (not_wbHolds _ h)⟩

/-! ## The padded length -/

/-- Settles O37: the upper bound takes in the rounding of the message to whole words. -/
theorem paddedLengthBounds : Obligations.PaddedLengthBounds := by
  intro l h h4 hmod
  obtain ⟨hm, hm4, hge, hlt⟩ := padLen_spec l h ((digestLength_iff h).2 ⟨h4, hmod⟩)
  obtain ⟨-, hle, hup⟩ := rup_spec l 4 (by decide)
  exact ⟨Nat.dvd_of_mod_eq_zero hm, Nat.dvd_of_mod_eq_zero hm4, by omega, by omega⟩

/-- A message of less than 2^32 bytes is at most 2^32 in whole words. -/
theorem rup_four_le (l : Nat) (hl : l < 2 ^ 32) : rup l 4 ≤ 2 ^ 32 := by
  obtain ⟨hmod, -, hup⟩ := rup_spec l 4 (by decide)
  omega

/-- The bounds of the padded length by the capacity of the Working Buffer. -/
theorem padLen_bounds (l h : Nat) (hl : l < 2 ^ 32) (hd : digestLength h = true) (hh : h ≤ Config.wbBytes) :
    padLen l h ≤ (l + 3) + h + (hlm h - 1) ∧ padLen l h < 2 ^ 33 ∧
    (hlm h ≤ Config.wbBytes → padLen l h < 2 ^ 32 + 3 * 0xF000) := by
  obtain ⟨-, -, -, hlt⟩ := padLen_spec l h hd
  obtain ⟨-, -, hpos, hlanes, -⟩ := hlm_spec h hd
  obtain ⟨-, -, hup⟩ := rup_spec l 4 (by decide)
  have hwhole := rup_four_le l hl
  have hwb := wbBytes_bounds
  exact ⟨by omega, by omega, fun hfit => by omega⟩

/-- Settles O38: the bounds are arithmetic; in the loop `C` is below 2^33 and `K` below `C`. -/
theorem paddedLengthNeverWraps : Obligations.PaddedLengthNeverWraps := by
  refine ⟨fun l h hl h4 hmod hh => padLen_bounds l h hl ((digestLength_iff h).2 ⟨h4, hmod⟩) hh, fun s ⟨_, _, hs⟩ hp => ?_⟩
  obtain ⟨-, -, hk, -⟩ := State.JobInv.loop_counters hs hp
  obtain ⟨hc, -⟩ := (s.phaseOk_loop hp).1 hs.2
  rw [hc]
  exact ⟨toNat_padLen_of_jobLength s.msglen _ (State.JobInv.jobLength_of_loop hs hp), hk⟩

end Sys2Proof.Machine
end

section
/-! PROOFS. The update loop as a left fold (41_update_loop.md section 3). `State.loopResult` is the fold that is still to come;
a STEP leaves it as it is, and where the loop is over it is what the machine holds. -/

namespace Sys2Proof.Machine

/-! ## The used words -/

theorem State.length_usedWords (s : State) : s.usedWords.length = hlm s.hashlen.toNat / 4 := by
  simp [State.usedWords]

theorem State.usedWords_getD (s : State) (i : Nat) (hi : i < hlm s.hashlen.toNat / 4) :
    s.usedWords.getD i 0#32 = s.wbWord i := by
  simp [State.usedWords, hi]

/-- A word write to one of the used words. -/
theorem State.usedWords_putWbWord (s : State) (n : Nat) (v : Word) :
    State.usedWords { s with wb := putWbWord s.wb n v } = s.usedWords.set n v := by
  refine List.ext_getElem (by simp [State.usedWords]) fun i hi _ => ?_
  rw [List.getElem_set]
  simp only [State.usedWords, List.getElem_map, List.getElem_range]
  split
  next h => exact h ▸ wbWordOf_putWbWord_self ..
  next h => exact wbWordOf_putWbWord_ne _ _ _ _ _ (Ne.symm h)

/-! ## STEP and the update of the reference -/

/-- In the loop the Cursor is at one of the used words. -/
theorem State.JobInv.cursor {s : State} (hs : s.JobInv) (hp : s.phase = .loop) :
    s.hpos.toNat % 4 = 0 ∧ s.hpos.toNat / 4 < hlm s.hashlen.toNat / 4 := by
  have hj := hs.jobLength_of_loop hp
  obtain ⟨hm, hm4, -, -⟩ := hlm_of_jobLength _ hj
  obtain ⟨hk4, -, -, -, hpos⟩ := hs.counters hj (.inl hp)
  have hlt : s.hpos.toNat < hlm s.hashlen.toNat := hpos ▸ Nat.mod_lt _ hm
  have h4 : s.hpos.toNat % 4 = 0 := by rw [hpos, Nat.mod_mod_of_dvd _ (Nat.dvd_of_mod_eq_zero hm4), hk4]
  exact ⟨h4, by omega⟩

theorem State.JobInv.nextHpos_div_four {s : State} (hs : s.JobInv) (hp : s.phase = .loop) :
    s.nextHpos.toNat / 4 = if s.hpos.toNat / 4 + 1 = hlm s.hashlen.toNat / 4 then 0 else s.hpos.toNat / 4 + 1 := by
  have hj := hs.jobLength_of_loop hp
  obtain ⟨hm, hm4, -, -⟩ := hlm_of_jobLength _ hj
  obtain ⟨hk4, -, -, -, hpos⟩ := hs.counters hj (.inl hp)
  obtain ⟨h4, -⟩ := hs.cursor hp
  rw [s.toNat_nextHpos hj hk4 hpos, add_four_mod _ _ hm hm4 hk4, ← hpos]
  split <;> split <;> omega

/-- STEP is the reference's update by the message word at `K`. -/
theorem State.JobInv.loopView_updateStep {s : State} (hs : s.JobInv) (hp : s.phase = .loop) :
    s.updateStep.loopView = s.loopView.update (s.msgWord s.k.toNat) := by
  obtain ⟨-, hin⟩ := hs.cursor hp
  have hword : s.loopView.words.getD s.loopView.cursor 0#32 = s.wbWord (s.hpos.toNat / 4) := s.usedWords_getD _ hin
  have hlen : s.loopView.words.length = hlm s.hashlen.toNat / 4 := s.length_usedWords
  rw [LoopState.update, hword, hlen]
  exact LoopState.mk.injEq .. |>.mpr
    ⟨xor_setWidth_eq_append .., rfl, s.usedWords_putWbWord _ _, hs.nextHpos_div_four hp⟩

/-! ## The fold that is still to come -/

theorem State.JobInv.wordsToGo_eq_cons {s : State} (hs : s.JobInv) (hp : s.phase = .loop) :
    s.wordsToGo = s.msgWord s.k.toNat :: s.updateStep.wordsToGo := by
  obtain ⟨hmod, hlt, hk, hdown⟩ := hs.loop_counters hp
  have hcount : (s.c.toNat - s.k.toNat) / 4 = (s.c.toNat - (s.k + 4#64).toNat) / 4 + 1 := by omega
  have hword : ∀ x, s.updateStep.msgWord x = s.msgWord x := fun _ => rfl
  simp only [State.wordsToGo, State.updateStep_c, State.updateStep_k, hword, hcount, hk, List.range_succ_eq_map,
    List.map_cons, List.map_map, Nat.mul_zero, Nat.add_zero]
  refine congrArg _ (List.map_congr_left fun j _ => congrArg s.msgWord ?_)
  omega

/-- The loop's values after the words still to come. -/
def State.loopResult (s : State) : LoopState := s.wordsToGo.foldl LoopState.update s.loopView

theorem State.JobInv.loopResult_updateStep {s : State} (hs : s.JobInv) (hp : s.phase = .loop) :
    s.updateStep.loopResult = s.loopResult := by
  rw [State.loopResult, State.loopResult, hs.wordsToGo_eq_cons hp, List.foldl_cons, hs.loopView_updateStep hp]

theorem State.loopResult_of_over (s : State) (hk : s.k = s.c) : s.loopResult = s.loopView := by
  simp [State.loopResult, State.wordsToGo, hk]

/-! ## The loop's run -/

/-- `t` is reached from `s` by STEPs of one job: the fold's result, the registers that no STEP names, and the bytes past the
used words are the same. -/
structure State.LoopReaches (s t : State) : Prop where
  inv : t.JobInv
  result : t.loopResult = s.loopResult
  frame : t = { s with wb := t.wb, seed := t.seed, lcg := t.lcg, hpos := t.hpos, k := t.k, phase := t.phase }
  bytes : ∀ a, hlm s.hashlen.toNat ≤ a → t.wbByte a = s.wbByte a

theorem State.LoopReaches.refl {s : State} (hs : s.JobInv) : s.LoopReaches s :=
  ⟨hs, rfl, rfl, fun _ _ => rfl⟩

theorem State.LoopReaches.trans {s t u : State} (hst : s.LoopReaches t) (htu : t.LoopReaches u) : s.LoopReaches u where
  inv := htu.inv
  result := htu.result.trans hst.result
  frame := by rw [htu.frame, hst.frame]
  bytes a ha := by
    have hlen : t.hashlen = s.hashlen := by rw [hst.frame]
    rw [htu.bytes a (hlen ▸ ha), hst.bytes a ha]

theorem State.loopReaches_updateStep (s : State) (hs : s.JobInv) (hp : s.phase = .loop) : s.LoopReaches s.updateStep where
  inv := s.jobInv_updateStep hs hp
  result := hs.loopResult_updateStep hp
  frame := rfl
  bytes a ha := by
    obtain ⟨-, hin⟩ := hs.cursor hp
    exact wbByteOf_putWbWord_of_ne _ _ _ _ _ (by omega)

theorem State.JobInv.step_loop {s : State} (hs : s.JobInv) (hturns : s.turns = []) (hp : s.phase = .loop) :
    step s = .next s.updateStep := by
  have hi : s.engineInstr = some (.step s.mode) := by rw [engineInstr_eq, hp]
  rw [step_engine s _ hturns hi, exec_step_of_wbHolds _ s (hs.wbHolds_cursor hp)]

/-- The phase after the last STEP (41_update_loop.md R104). -/
def State.afterLoop (s : State) : Phase := if 4 < s.hashlen.toNat then .fold else .fin

theorem State.JobInv.nextPhase_eq {s : State} (hs : s.JobInv) (hp : s.phase = .loop) :
    s.nextPhase = if s.c.toNat - s.k.toNat = 4 then s.afterLoop else .loop := by
  obtain ⟨-, -, -, -, hlanes⟩ := hlm_spec _ (digestLength_of_jobLength _ (hs.jobLength_of_loop hp))
  obtain ⟨-, hlt, hk, -⟩ := hs.loop_counters hp
  have hlast : s.k + 4#64 = s.c ↔ s.c.toNat - s.k.toNat = 4 := by
    rw [← BitVec.toNat_inj, hk]
    omega
  simp only [State.nextPhase, State.afterLoop, hlast, hlanes, hp]

/-- From any point of the loop, one step for each word still to come. -/
theorem State.JobInv.exists_loop_run {s : State} (hs : s.JobInv) (hturns : s.turns = []) (hp : s.phase = .loop) (n : Nat)
    (hn : s.c.toNat - s.k.toNat = 4 * (n + 1)) :
    ∃ t, runSteps (n + 1) s = .next t ∧ s.LoopReaches t ∧ t.phase = s.afterLoop := by
  induction n generalizing s with
  | zero =>
    have hnext : s.updateStep.phase = s.afterLoop := (hs.nextPhase_eq hp).trans (if_pos hn)
    exact ⟨s.updateStep, runSteps_succ 0 s _ (hs.step_loop hturns hp), s.loopReaches_updateStep hs hp, hnext⟩
  | succ n ih =>
    have hnext : s.updateStep.phase = .loop := (hs.nextPhase_eq hp).trans (if_neg (by omega))
    have hone := s.loopReaches_updateStep hs hp
    obtain ⟨-, -, -, hdown⟩ := hs.loop_counters hp
    have hn' : s.updateStep.c.toNat - s.updateStep.k.toNat = 4 * (n + 1) := by
      rw [State.updateStep_c, State.updateStep_k]
      omega
    obtain ⟨t, hrun, hreach, hafter⟩ := ih hone.inv hturns hnext hn'
    exact ⟨t, (runSteps_succ _ s _ (hs.step_loop hturns hp)).trans hrun, hone.trans hreach, hafter⟩

theorem State.JobInv.exists_loop_end {s : State} (hs : s.JobInv) (hturns : s.turns = []) (hp : s.phase = .loop) :
    ∃ t, runSteps ((s.c.toNat - s.k.toNat) / 4) s = .next t ∧ s.LoopReaches t ∧ t.phase = s.afterLoop := by
  obtain ⟨hmod, hlt, -, -⟩ := hs.loop_counters hp
  obtain ⟨n, hn⟩ : ∃ n, s.c.toNat - s.k.toNat = 4 * (n + 1) := ⟨(s.c.toNat - s.k.toNat) / 4 - 1, by omega⟩
  have hcount : (s.c.toNat - s.k.toNat) / 4 = n + 1 := by omega
  rw [hcount]
  exact hs.exists_loop_run hturns hp n hn

theorem State.afterLoop_cases (s : State) : s.afterLoop = .fold ∨ s.afterLoop = .fin := by
  unfold State.afterLoop
  split <;> simp

/-- Where the loop is over, the machine holds the fold's result. -/
theorem State.LoopReaches.loopView_eq {s t : State} (h : s.LoopReaches t) (hp : t.phase = s.afterLoop) :
    t.loopView = s.loopResult := by
  obtain ⟨-, hk, -⟩ := h.inv.loop_over (hp ▸ s.afterLoop_cases)
  rw [← h.result, t.loopResult_of_over hk]

/-- Settles O48: a STEP keeps `State.loopResult`, and the loop ends where nothing of it is left to come. -/
theorem loopIsALeftFold : Obligations.LoopIsALeftFold := by
  rintro s ⟨-, -, hs⟩ hturns hp
  obtain ⟨t, hrun, hreach, hafter⟩ := State.JobInv.exists_loop_end hs hturns hp
  exact ⟨t, hrun, hreach.loopView_eq hafter, hafter⟩

end Sys2Proof.Machine
end

section
/-! PROOFS. A whole job (42_fold_finalize.md section 3): the initialisation sets up the fold of the reference, the loop runs it,
FOLD and FIN make its digest. -/

namespace Sys2Proof.Machine

/-! ## The initialisation -/

theorem State.usedWords_zeroFill (s : State) :
    State.usedWords { s with wb := zeroFill (hlm s.hashlen.toNat / 4) s.wb } = List.replicate (hlm s.hashlen.toNat / 4) 0#32 := by
  refine List.ext_getElem (by simp [State.usedWords]) fun i hi _ => ?_
  rw [State.length_usedWords] at hi
  simp only [State.usedWords, List.getElem_map, List.getElem_range, List.getElem_replicate]
  exact (wbWordOf_zeroFill ..).trans (if_pos hi)

theorem State.refInit_of_default (s : State) (hm : s.mode = .defaultMode) : s.refInit =
    ⟨Config.cSeed ^^^ s.entropy, Config.cLcg, List.replicate (hlm s.hashlen.toNat / 4) 0#32, 0⟩ := by
  rw [State.refInit, hm]

theorem State.refInit_of_resume (s : State) (hm : s.mode = .resumeMode) :
    s.refInit = ⟨s.ivSeed, s.ivLcg, s.usedWords, 0⟩ := by
  rw [State.refInit, hm]

theorem State.loopView_beginLoop (s : State) (x y : DWord) : (s.beginLoop x y).loopView = ⟨x, y, s.usedWords, 0⟩ :=
  (LoopState.mk.injEq ..).mpr ⟨rfl, rfl, rfl, Nat.zero_div 4⟩

/-- In either mode INIT sets up the loop's values of the reference, and leaves the bytes past the used words. -/
theorem State.JobInv.exists_init {s : State} (hs : s.JobInv) (hturns : s.turns = []) (hp : s.phase = .init) :
    ∃ x y wb, step s = .next (State.beginLoop x y { s with wb := wb }) ∧
      (State.beginLoop x y { s with wb := wb }).loopView = s.refInit ∧
      ∀ a, hlm s.hashlen.toNat ≤ a → wbByteOf s.wbGen wb a = s.wbByte a := by
  obtain ⟨hj, -⟩ := hs.1 (s.busy_iff.2 (.inl hp))
  obtain ⟨-, hm4, -, hw⟩ := hlm_of_jobLength _ hj
  have hmode : s.mode = .defaultMode ∨ s.mode = .resumeMode := by cases s.mode <;> simp
  obtain hm | hm := hmode
  · have hi : s.engineInstr = some .initD := by rw [engineInstr_eq, hp, hm]
    have hfit : wbHolds (hlm s.hashlen.toNat / 4) = true := decide_eq_true (by omega)
    refine ⟨_, _, _, (step_engine s _ hturns hi).trans (exec_initD_of_wbHolds s hfit), ?_, ?_⟩
    · rw [State.loopView_beginLoop, s.usedWords_zeroFill, s.refInit_of_default hm]
    · exact fun a ha => wbByteOf_zeroFill_of_ge _ _ _ _ (by omega)
  · have hi : s.engineInstr = some .initR := by rw [engineInstr_eq, hp, hm]
    refine ⟨s.ivSeed, s.ivLcg, s.wb, step_engine s _ hturns hi, ?_, fun _ _ => rfl⟩
    rw [State.loopView_beginLoop, s.refInit_of_resume hm]

/-- The words the loop has before it right after INIT are those of the padded message. -/
theorem State.wordsToGo_beginLoop (s : State) (x y : DWord) (wb : Memory) (hj : jobLength s.hashlen.toNat = true) :
    (State.beginLoop x y { s with wb := wb }).wordsToGo = s.refMessage := by
  have hc : (State.beginLoop x y { s with wb := wb }).c.toNat = padLen s.msglen.toNat s.hashlen.toNat :=
    toNat_padLen_of_jobLength s.msglen _ hj
  rw [State.wordsToGo, hc]
  simp only [State.beginLoop_k, BitVec.toNat_zero, Nat.sub_zero, Nat.zero_add]
  rfl

/-! ## FOLD and FIN -/

theorem State.JobInv.step_fold {s : State} (hs : s.JobInv) (hturns : s.turns = []) (hp : s.phase = .fold) :
    step s = .next
      { s with wb := foldLanes s.wbGen (s.hashlen.toNat / 4) (s.hashlen.toNat / 4) s.wb, phase := .fin } := by
  have hi : s.engineInstr = some (.fold s.mode) := by rw [engineInstr_eq, hp]
  rw [step_engine s _ hturns hi, exec_fold_of_wbHolds _ s (hs.wbHolds_lanes hp)]

theorem step_fin (s : State) (hturns : s.turns = []) (hp : s.phase = .fin) : step s = .next { s with phase := .done } := by
  have hi : s.engineInstr = some (.fin s.mode) := by rw [engineInstr_eq, hp]
  rw [step_engine s _ hturns hi]
  rfl

/-- The digest's word `i` in a state after the loop. -/
def State.digestWord (s : State) (i : Nat) : Word :=
  if s.hashlen.toNat = 4 then s.wbWord i else s.wbWord i ^^^ s.wbWord (s.hashlen.toNat / 4 + i)

/-- After the loop, FOLD for a digest of more than one word and FIN put the digest into lane 0 and hand it over. -/
theorem State.JobInv.exists_finish {s : State} (hs : s.JobInv) (hj : jobLength s.hashlen.toNat = true)
    (hturns : s.turns = []) (hp : s.phase = s.afterLoop) :
    ∃ t, runSteps ((if 4 < s.hashlen.toNat then 1 else 0) + 1) s = .next t ∧ t = { s with wb := t.wb, phase := .done } ∧
      (∀ i, i < s.hashlen.toNat / 4 → t.wbWord i = s.digestWord i) ∧
      ∀ a, 4 * (s.hashlen.toNat / 4) ≤ a → t.wbByte a = s.wbByte a := by
  unfold State.afterLoop at hp
  split at hp
  next hlong =>
    refine ⟨{ s with wb := foldLanes s.wbGen (s.hashlen.toNat / 4) (s.hashlen.toNat / 4) s.wb, phase := .done },
      ?_, rfl, fun i hi => ?_, fun a ha => wbByteOf_foldLanes _ _ _ _ _ (by omega)⟩
    · rw [if_pos hlong, runSteps_succ 1 s _ (hs.step_fold hturns hp)]
      exact runSteps_succ 0 _ _ (step_fin _ hturns rfl)
    · rw [State.digestWord, if_neg hlong.ne']
      exact wbWordOf_foldLanes_lt _ _ _ _ i le_rfl hi
  next hshort =>
    obtain ⟨⟨hge, -⟩, -⟩ := (jobLength_iff _).1 hj
    have hfour : s.hashlen.toNat = 4 := by omega
    refine ⟨{ s with phase := .done }, ?_, rfl, fun i _ => ?_, fun _ _ => rfl⟩
    · rw [if_neg hshort]
      exact runSteps_succ 0 s _ (step_fin s hturns hp)
    · rw [State.digestWord, if_pos hfour]
      rfl

theorem State.wbWord_eq_of_bytes (s t : State) (n i : Nat) (h : ∀ a, 4 * n ≤ a → t.wbByte a = s.wbByte a) (hi : n ≤ i) :
    t.wbWord i = s.wbWord i := by
  have hbyte : ∀ j, wbByteOf t.wbGen t.wb (4 * i + j) = wbByteOf s.wbGen s.wb (4 * i + j) := fun j => h _ (by omega)
  rw [State.wbWord, State.wbWord, wbWordOf, wbWordOf, hbyte 3, hbyte 2, hbyte 1]
  exact congrArg _ (congrArg _ (hbyte 0))

/-- The output folder of the reference, on the words the machine holds after the loop. -/
theorem State.foldedWords_usedWords (s : State) (hj : jobLength s.hashlen.toNat = true) :
    foldedWords s.hashlen.toNat s.usedWords = (List.range (s.hashlen.toNat / 4)).map s.digestWord := by
  obtain ⟨-, hm4, hge, -⟩ := hlm_of_jobLength _ hj
  refine List.map_congr_left fun i hi => ?_
  rw [List.mem_range] at hi
  rw [State.digestWord, s.usedWords_getD i (by omega)]
  split
  · rfl
  next hlong =>
    have hlanes : hlm s.hashlen.toNat = 2 * s.hashlen.toNat := if_neg hlong
    rw [s.usedWords_getD _ (by omega)]

/-! ## The job -/

/-- The loop's values of the reference after the whole message. -/
def State.refResult (s : State) : LoopState := s.refMessage.foldl LoopState.update s.refInit

/-- INIT and the loop: the machine holds what the reference has after the whole message, in a job whose counters are through. -/
theorem State.JobInv.exists_looped {s : State} (hs : s.JobInv) (hturns : s.turns = []) (hp : s.phase = .init) :
    ∃ t, runSteps (1 + padLen s.msglen.toNat s.hashlen.toNat / 4) s = .next t ∧ t.JobInv ∧ t.phase = s.afterLoop ∧
      t.usedWords = s.refResult.words ∧
      t = { s with
        wb := t.wb
        seed := s.refResult.seed
        lcg := s.refResult.lcg
        hpos := 0#16
        lb := s.padByte
        c := BitVec.ofNat 64 (padLen s.msglen.toNat s.hashlen.toNat)
        k := BitVec.ofNat 64 (padLen s.msglen.toNat s.hashlen.toNat)
        phase := t.phase } ∧
      ∀ a, hlm s.hashlen.toNat ≤ a → t.wbByte a = s.wbByte a := by
  obtain ⟨hj, herr⟩ := hs.1 (s.busy_iff.2 (.inl hp))
  obtain ⟨x, y, wb, hinit, hview, hbytes⟩ := hs.exists_init hturns hp
  have hmessage := s.wordsToGo_beginLoop x y wb hj
  have hc : (State.beginLoop x y { s with wb := wb }).c.toNat = padLen s.msglen.toNat s.hashlen.toNat :=
    toNat_padLen_of_jobLength s.msglen _ hj
  have hinv := State.jobInv_beginLoop { s with wb := wb } x y hj herr
  obtain ⟨t, hrun, hreach, hafter⟩ := hinv.exists_loop_end hturns rfl
  have hresult : t.loopView = s.refResult := by
    rw [hreach.loopView_eq hafter, State.loopResult, hmessage, hview]
    rfl
  have hframe := hreach.frame
  obtain ⟨-, hk, hpos⟩ := hreach.inv.loop_over (hafter ▸ State.afterLoop_cases _)
  have hkc : t.k = BitVec.ofNat 64 (padLen s.msglen.toNat s.hashlen.toNat) := hk.trans (by rw [hframe]; rfl)
  rw [hc, State.beginLoop_k, BitVec.toNat_zero, Nat.sub_zero] at hrun
  refine ⟨t, ?_, hreach.inv, hafter, congrArg LoopState.words hresult, ?_, fun a ha => ?_⟩
  · rw [runSteps_add 1 _ s _ (runSteps_succ 0 s _ hinit), hrun]
  · have hseed : t.seed = s.refResult.seed := congrArg LoopState.seed hresult
    have hlcg : t.lcg = s.refResult.lcg := congrArg LoopState.lcg hresult
    refine hframe.trans ?_
    rw [hseed, hlcg, hpos, hkc]
    rfl
  · exact (hreach.bytes a ha).trans (hbytes a ha)

/-- Settles O50: the machine's loop ends in the reference's values, and FOLD and FIN do to them what the output folder does. -/
theorem jobComputesTheDigest : Obligations.JobComputesTheDigest := by
  rintro s ⟨-, -, hs⟩ hturns hp
  obtain ⟨hj, -⟩ := hs.1 (s.busy_iff.2 (.inl hp))
  obtain ⟨-, hm4, hge, -⟩ := hlm_of_jobLength _ hj
  obtain ⟨t, hrun, hinv, hafter, hwords, hframe, hbytes⟩ := State.JobInv.exists_looped hs hturns hp
  have hlen : t.hashlen = s.hashlen := by rw [hframe]
  have hturns' : t.turns = [] := by rw [hframe]; exact hturns
  have hafter' : t.phase = t.afterLoop := by rw [hafter, State.afterLoop, State.afterLoop, hlen]
  obtain ⟨u, hfinish, hdone, hdigest, hlane⟩ := hinv.exists_finish (hlen ▸ hj) hturns' hafter'
  rw [hlen] at hfinish hdigest hlane
  refine ⟨u, ?_, ?_, fun i hi hlt => ?_, ?_, fun a ha => ?_⟩
  · rw [State.jobSteps, Nat.add_assoc (1 + _), runSteps_add _ _ s t hrun, hfinish]
  · change _ = foldedWords s.hashlen.toNat s.refResult.words
    rw [← hwords, ← hlen, t.foldedWords_usedWords (hlen ▸ hj), hlen]
    exact List.map_congr_left fun i hi => hdigest i (List.mem_range.1 hi)
  · change _ = s.refResult.words.getD i 0#32
    rw [← hwords, t.usedWords_getD i (hlen ▸ hlt)]
    exact State.wbWord_eq_of_bytes t u _ i hlane hi
  · rw [hdone, hframe]
    rfl
  · exact (hlane a (by omega)).trans (hbytes a ha)

end Sys2Proof.Machine
end
